-- ==== Sys2Proof/Word.lean ====
section
/-! DEFINITION. The word types of the CFB mode engine.
`spec/00_scope.md` R8, R10, R11, R12; `spec/30_encoding.md` R79, R80. -/

namespace Sys2Proof

/-- A payload byte: 8 bits (R50). -/
abbrev Byte := BitVec 8

/-- A command header or a response word: a 32-bit value with no byte order of its own (R55, R79, R80). -/
abbrev Word := BitVec 32

/-- A 16-byte block read as the 128-bit number `val(B)` of R12: byte `B[0]` holds bits 127..120 and
`B[15]` bits 7..0. Its byte view is `Machine.byteAt` and `Machine.blockBytes`. -/
abbrev Block := BitVec 128

/-- A key-schedule reference: 8 bits (R10, R31). -/
abbrev KsRef := BitVec 8

/-- "Opaque expanded-key material" (R14, R34). DESIGN CHOICE (log 2), safe: held as a byte string of any
length, of which the model knows nothing, since only `Config.E`, which has no body, takes it. -/
abbrev RoundKeys := List Byte

end Sys2Proof
end

