-- ==== Sys2Proof/Syntax.lean ====
section
/-! DEFINITION. The three commands of the engine, and a command as the host presents it.
`spec/30_encoding.md` R70 to R76; one constructor of `Instr` per row of `spec/opcode_table.json`. -/

namespace Sys2Proof

/-- A command as the model takes it: "a pair `(header, payload)`" (R71). Whether the payload has the length
the header declares is `framed` (Decode.lean). -/
structure Command where
  header : Word
  payload : List Byte
deriving DecidableEq, Repr

/-- The direction (R27, D29): `DIR = 0` encrypt, `DIR = 1` decrypt. -/
inductive Direction where
  | encrypt
  | decrypt
deriving DecidableEq, Repr, Inhabited

/-- The engine's commands (R70). Header fields are the raw field bits (R75); a payload is its byte
sequence in arrival order, whose length is the header's length field (R83). -/
inductive Instr where
  /-- `SELECT ksb, fw` (R173): raw `KSB` and `FW`, numbers of bits. -/
  | select (ksb : BitVec 12) (fw : BitVec 8)
  /-- `INIT.E fw, ksref, iv` and `INIT.D fw, ksref, iv` (R185): `IVLEN` is the length of `iv`. -/
  | init (dir : Direction) (fw : BitVec 8) (ksref : KsRef) (iv : List Byte)
  /-- `PROCESS bytes` (R100): `LEN` is the length of `input`. -/
  | process (input : List Byte)
deriving DecidableEq, Repr

end Sys2Proof
end

