-- ==== Sys2Proof/WellFormed.lean ====
section
/-! DEFINITION. Which instruction terms have an encoding: a payload length must fit its header field.
`spec/30_encoding.md` R73 (`IVLEN`, 0 to 255), R74 (`LEN`, 0 to `MAXLEN`); `spec/00_scope.md` R10. -/

namespace Sys2Proof

/-- `MAXLEN = 2^24 - 1`, the most bytes one `PROCESS` moves (R10). -/
def maxLen : Nat := 16777215

/-- The largest `IVLEN`, an 8-bit field (R73). -/
def maxIvLen : Nat := 255

/-- An instruction is well formed when its payload length fits the header field that carries it. The
other operands are bit fields of the header and always fit. -/
def Instr.wellFormed (i : Instr) : Bool :=
  match i with
  | .select _ _ => true
  | .init _ _ _ iv => decide (iv.length ≤ maxIvLen)
  | .process input => decide (input.length ≤ maxLen)

end Sys2Proof
end

