-- ==== Sys2Proof/Decode.lean ====
section
/-! DEFINITION. Decoding a command, total on every header and payload, rejecting by name; and the
encoder, written from the same formats. `spec/30_encoding.md` R71 to R79. -/

namespace Sys2Proof

/-- `header[31:28]` (R76). -/
def opcodeOf (h : Word) : BitVec 4 := h.extractLsb' 28 4

/-- `plen(header)` (R71): the number of payload bytes the header declares, read from the opcode and one
length field even when the header is otherwise illegal. -/
def plen (h : Word) : Nat :=
  if opcodeOf h = 2#4 then (h.extractLsb' 8 8).toNat
  else if opcodeOf h = 3#4 then (h.extractLsb' 0 24).toNat
  else 0

/-- A pair is a command only when `length(payload) = plen(header)` (R71). -/
def framed (c : Command) : Bool := decide (c.payload.length = plen c.header)

/-- Why a header is no legal command (R77). -/
inductive DecodeError where
  /-- `header[31:28]` is `0x0` or `0x4` to `0xF`. -/
  | unassignedOpcode
  /-- An assigned opcode with a reserved bit set. -/
  | reservedBitSet
deriving DecidableEq, Repr

/-- The direction an `INIT` header's bit 27 names (R73, D29). -/
def directionOfBit (b : Bool) : Direction := if b then .decrypt else .encrypt

/-- Format S (R72): `KSB` in bits 27:16, `FW` in bits 15:8, bits 7:0 reserved. -/
def decodeSelect (h : Word) : Except DecodeError Instr :=
  if h.extractLsb' 0 8 = 0#8 then .ok (.select (h.extractLsb' 16 12) (h.extractLsb' 8 8))
  else .error .reservedBitSet

/-- Format I (R73): `DIR` bit 27, bits 26:24 reserved, `FW` 23:16, `IVLEN` 15:8, `KSREF` 7:0. The
payload is the IV; its length is `IVLEN` for every framed command. -/
def decodeInit (h : Word) (payload : List Byte) : Except DecodeError Instr :=
  if h.extractLsb' 24 3 = 0#3 then
    .ok (.init (directionOfBit (h.getLsbD 27)) (h.extractLsb' 16 8) (h.extractLsb' 0 8) payload)
  else .error .reservedBitSet

/-- Format P (R74): bits 27:24 reserved, `LEN` in bits 23:0, the length of the payload. -/
def decodeProcess (h : Word) (payload : List Byte) : Except DecodeError Instr :=
  if h.extractLsb' 24 4 = 0#4 then .ok (.process payload) else .error .reservedBitSet

/-- The decoder (R76): the opcode chooses the format, and a reserved bit that is set makes the header
illegal (R77). -/
def decode (c : Command) : Except DecodeError Instr :=
  if opcodeOf c.header = 1#4 then decodeSelect c.header
  else if opcodeOf c.header = 2#4 then decodeInit c.header c.payload
  else if opcodeOf c.header = 3#4 then decodeProcess c.header c.payload
  else .error .unassignedOpcode

/-- The bit an `INIT` header carries for a direction (R73, D29). -/
def bitOfDirection : Direction → BitVec 1
  | .encrypt => 0#1
  | .decrypt => 1#1

/-- A `SELECT` header (R72): `OPC` = 1, `KSB` in bits 27:16, `FW` in bits 15:8. -/
def selectHeader (ksb : BitVec 12) (fw : BitVec 8) : Word :=
  (1#32 <<< 28) ||| (ksb.setWidth 32 <<< 16) ||| (fw.setWidth 32 <<< 8)

/-- An `INIT` header (R73): `OPC` = 2, `DIR` bit 27, `FW` 23:16, `IVLEN` 15:8, `KSREF` 7:0. -/
def initHeader (dir : Direction) (fw ivlen : BitVec 8) (ksref : KsRef) : Word :=
  (2#32 <<< 28) ||| ((bitOfDirection dir).setWidth 32 <<< 27) ||| (fw.setWidth 32 <<< 16)
    ||| (ivlen.setWidth 32 <<< 8) ||| ksref.setWidth 32

/-- A `PROCESS` header (R74): `OPC` = 3, `LEN` in bits 23:0. -/
def processHeader (len : BitVec 24) : Word := (3#32 <<< 28) ||| len.setWidth 32

/-- The encoder, from the formats of R72 to R74. -/
def encode (i : Instr) : Command :=
  match i with
  | .select ksb fw => ⟨selectHeader ksb fw, []⟩
  | .init dir fw ksref iv => ⟨initHeader dir fw (BitVec.ofNat 8 iv.length) ksref, iv⟩
  | .process input => ⟨processHeader (BitVec.ofNat 24 input.length), input⟩

/-- The first `n` bytes of a number, least significant byte first. -/
def bytesOfNat : Nat → Nat → List Byte
  | 0, _ => []
  | n + 1, v => BitVec.ofNat 8 v :: bytesOfNat n (v >>> 8)

/-- The command whose bits are `w`, numbered as `spec/opcode_table.json` numbers them: the header is bits
31..0, payload byte `k` is bits `32 + 8k` and up; every bit above `nbits` is 0. The payload has the
length the header declares, so the pair is framed. -/
def commandOfTableWord (nbits w : Nat) : Command :=
  let v := w % 2 ^ nbits
  let h : Word := BitVec.ofNat 32 v
  ⟨h, bytesOfNat (plen h) (v >>> 32)⟩

/-- What the decoder reads from the command whose bits are `w`; none where it rejects the header. -/
def decodeTableWord (nbits w : Nat) : Option Instr :=
  match decode (commandOfTableWord nbits w) with
  | .ok i => some i
  | .error _ => none

end Sys2Proof
end

