-- ==== Sys2Proof/Config.lean ====
section
/-! DEFINITION. What an instance fixes and what the spec leaves open.
The parameters of `spec/00_scope.md` R9 (`E`, `KS`, `HWREG`) with their types, and the free values of
`spec/10_state.md` R39 (what the registers hold after a reset). Every constant here is opaque, with no
body: no proof can see a value of one. -/

namespace Sys2Proof

/-- The legal key sizes `{128, 192, 256}` (R8), the three legal values of `CTL.KC` (R29). -/
inductive KeySize where
  | k128
  | k192
  | k256
deriving DecidableEq, Repr, Inhabited

/-- The legal feedback widths `{128, 8, 1}` (R8), the three legal values of `CTL.WC` (R28). -/
inductive Width where
  | w128
  | w8
  | w1
deriving DecidableEq, Repr, Inhabited

/-- The implementation variants of the registry (R29, R171). -/
inductive Variant where
  | reference
  | hardwareAccelerated
deriving DecidableEq, Repr, Inhabited

/-- One slot of the key-schedule store (R34): the size in bits of the raw key, and the round keys. -/
structure KeySlot where
  ksb : Nat
  rk : RoundKeys
deriving DecidableEq, Repr, Inhabited

/-- The dispatch table (R36): nine rows, one variant each; row `k<key size>w<width>`. A pair is in
`HWREG` exactly when its row holds `hardwareAccelerated`. -/
structure DispatchTable where
  k128w128 : Variant
  k128w8 : Variant
  k128w1 : Variant
  k192w128 : Variant
  k192w8 : Variant
  k192w1 : Variant
  k256w128 : Variant
  k256w8 : Variant
  k256w1 : Variant
deriving DecidableEq, Repr, Inhabited

namespace Config

/-- The block cipher's encrypt function `E(rk, B)` (R13): total and deterministic, nothing else assumed
(D27). Log 2. -/
opaque E : RoundKeys → Block → Block

/-- The key-schedule store of the run (R34), a slot for each of the 256 references: the parameter `KS`
of R9 as it stands when the run begins. Log 1. -/
opaque KS : Vector KeySlot 256

/-- The dispatch table of the instance (R36): the parameter `HWREG` of R9. Log 1. -/
opaque HWREG : DispatchTable

/-- DESIGN CHOICE (log 5): what `FB` holds after reset number `n` (R39: unspecified). -/
opaque resetFB : Nat → Block

/-- DESIGN CHOICE (log 5): what `CTL.DIR` holds after reset number `n` (R39: unspecified). -/
opaque resetDIR : Nat → Direction

/-- DESIGN CHOICE (log 5, log 6): what `CTL.WC` holds after reset number `n` (R39: unspecified). -/
opaque resetWC : Nat → Width

/-- DESIGN CHOICE (log 5, log 6): what `CTL.KC` holds after reset number `n` (R39: unspecified). -/
opaque resetKC : Nat → KeySize

/-- DESIGN CHOICE (log 5): what `CTL.VAR` holds after reset number `n` (R39: unspecified). -/
opaque resetVAR : Nat → Variant

/-- DESIGN CHOICE (log 5): what `CTL.CUR` holds after reset number `n` (R39: unspecified). -/
opaque resetCUR : Nat → BitVec 3

/-- DESIGN CHOICE (log 5): what `KSREF` holds after reset number `n` (R39: unspecified). -/
opaque resetKSREF : Nat → KsRef

end Config

end Sys2Proof
end

