-- ==== Sys2Proof/Machine/State.lean ====
section
/-! DEFINITION. The state of one engine instance and what surrounds it, as plain data.
`spec/10_state.md` R20 to R40; the host's side of the port after `spec/20_memory.md` R58 and
`spec/70_reset_and_hazards.md` R243, R245. -/

namespace Sys2Proof.Machine

/-- The lifecycle state `LS` (R24, C1). -/
inductive Lifecycle where
  /-- No context exists. -/
  | uninit
  /-- A context was created and no non-empty `PROCESS` has run on it. -/
  | initialized
  /-- At least one non-empty `PROCESS` has run and the stream can continue. -/
  | inUse
  /-- A CFB128 `PROCESS` ended with a partial chunk; terminal for the context. -/
  | exhausted
deriving DecidableEq, Repr

/-- The context control register `CTL` (R26), field by field. Its 11-bit layout is `ctlWord`
(Operands.lean). Log 6: the codes `WC = 3` and `KC = 3`, "never written by any rule", have no term here. -/
structure Ctl where
  /-- Lifecycle state, bits 1:0 (R24). -/
  LS : Lifecycle
  /-- Direction, bit 2 (R27). -/
  DIR : Direction
  /-- Feedback width code, bits 4:3 (R28). -/
  WC : Width
  /-- Key size code, bits 6:5 (R29). -/
  KC : KeySize
  /-- Selected implementation variant, bit 7 (R29). -/
  VAR : Variant
  /-- Bit cursor of CFB1, bits 10:8 (R30). -/
  CUR : BitVec 3
deriving DecidableEq, Repr

/-- What reaches the engine from outside. -/
inductive Event where
  /-- The host presents a command whose payload has arrived (R58, R71). -/
  | command (c : Command)
  /-- Reset is asserted (R240); a command then in progress is abandoned (R243). -/
  | reset (inProgress : Option Command)
deriving DecidableEq, Repr

/-- A response (R80): one 32-bit word and an output payload. -/
structure Response where
  word : Word
  payload : List Byte
deriving DecidableEq, Repr

/-- The machine. `FB`, `CTL` and `KSREF` are the engine's registers (R20); `KS` and `HWREG` are the
constants of the run it reads (R9, R34, R36; log 1); `events`, `responses` and `resets` are the model's
own (logs 3, 4, 5). -/
structure State where
  /-- The feedback register (R21). -/
  FB : Block
  /-- The context control register (R26). -/
  CTL : Ctl
  /-- The borrowed key-schedule reference (R31). -/
  KSREF : KsRef
  /-- The key-schedule store, outside the engine and never written by it (R34). -/
  KS : Vector KeySlot 256
  /-- The dispatch table, constant (R36). -/
  HWREG : DispatchTable
  /-- What the host presents from here on, in order (log 3). -/
  events : List Event
  /-- Every response sent, oldest first; read by nothing (log 4, R40). -/
  responses : List Response
  /-- How many resets there have been; picks the free values a reset leaves (log 5). -/
  resets : Nat
deriving DecidableEq, Repr

/-- Why the machine stops with a fault: never. Every error of the spec is a response code of a command
that completes (R210, R217, R219), and every command ends (R251). The type has no constructor, so no
state of this model faults; safe, as the spec has no stop. -/
inductive Fault where
deriving DecidableEq, Repr

/-- Why the machine refuses a step. -/
inductive Refusal where
  /-- An instruction without a meaning; raised by `exec`'s arms only. Every instruction has its meaning,
  so nothing raises it. Safe. -/
  | notModelled (mnemonic : String)
  /-- The pair at the port is no command: its payload is shorter or longer than `plen(header)` (R71, D25:
  "a model refuses any other pair at its boundary"). Raised by `step`. Safe. -/
  | illFramedCommand
deriving DecidableEq, Repr

/-- The machine after power-on reset: `CTL.LS = Uninit` (R39, R240). Every other register holds the free
value of reset number 0 (R39: unspecified; log 5); `KS` and `HWREG` are the run's parameters (R9, R242;
log 1); nothing has been presented or answered (logs 3, 4). -/
def State.reset : State where
  FB := Config.resetFB 0
  CTL :=
    { LS := .uninit
      DIR := Config.resetDIR 0
      WC := Config.resetWC 0
      KC := Config.resetKC 0
      VAR := Config.resetVAR 0
      CUR := Config.resetCUR 0 }
  KSREF := Config.resetKSREF 0
  KS := Config.KS
  HWREG := Config.HWREG
  events := []
  responses := []
  resets := 0

end Sys2Proof.Machine
end

