-- ==== Sys2Proof/Machine/Flags.lean ====
section
/-! DEFINITION. The engine has no flags, condition codes or sticky status (`spec/10_state.md` R32). What a
command reports, it reports once, in the status field of its own response: the codes of
`spec/30_encoding.md` R81 and the response word of R80. -/

namespace Sys2Proof.Machine

/-- The outcomes a response can report (R81, R210). -/
inductive Status where
  | ok
  | invalidKeySize
  | invalidIvLength
  | unsupportedConfiguration
  | uninitializedContext
  | streamExhausted
  | illegalCommand
deriving DecidableEq, Repr

/-- The status codes (R81); 7 to 15 are never produced. -/
def statusCode : Status → BitVec 4
  | .ok => 0#4
  | .invalidKeySize => 1#4
  | .invalidIvLength => 2#4
  | .unsupportedConfiguration => 3#4
  | .uninitializedContext => 4#4
  | .streamExhausted => 5#4
  | .illegalCommand => 6#4

/-- The response word (R80): `(OPC << 28) | (ST << 24) | INFO`. -/
def responseWord (opc : BitVec 4) (st : Status) (info : BitVec 24) : Word :=
  (opc.setWidth 32 <<< 28) ||| ((statusCode st).setWidth 32 <<< 24) ||| info.setWidth 32

end Sys2Proof.Machine
end

