-- ==== Sys2Proof/Machine/Operands.lean ====
section
/-! DEFINITION. Operand assembly: key sizes and widths from raw numbers, their codes, the `CTL` layout, the
rows of the constant tables, and the byte and bit views of a block.
`spec/00_scope.md` R12; `spec/10_state.md` R26 to R36; `spec/20_memory.md` R53, R54; `spec/30_encoding.md` R75. -/

namespace Sys2Proof.Machine

/-! ### Key sizes and feedback widths -/

/-- The key size a number of bits names, if it is one of `{128, 192, 256}` (R8, R174). -/
def keySizeOfBits (n : Nat) : Option KeySize :=
  if n = 128 then some .k128 else if n = 192 then some .k192 else if n = 256 then some .k256 else none

/-- The feedback width a number of bits names, if it is one of `{128, 8, 1}` (R8, R174). -/
def widthOfBits (n : Nat) : Option Width :=
  if n = 128 then some .w128 else if n = 8 then some .w8 else if n = 1 then some .w1 else none

/-- The number of bits of a key size (R29). -/
def keySizeBits : KeySize → Nat
  | .k128 => 128
  | .k192 => 192
  | .k256 => 256

/-- `width(WC)` (R28). -/
def widthBits : Width → Nat
  | .w128 => 128
  | .w8 => 8
  | .w1 => 1

/-! ### Codes and the layout of `CTL` -/

/-- The lifecycle codes (R24). -/
def lifecycleCode : Lifecycle → BitVec 2
  | .uninit => 0#2
  | .initialized => 1#2
  | .inUse => 2#2
  | .exhausted => 3#2

/-- The direction codes (R27, D29). -/
def directionCode : Direction → BitVec 1
  | .encrypt => 0#1
  | .decrypt => 1#1

/-- `wcode` (R28, R189). -/
def widthCode : Width → BitVec 2
  | .w128 => 0#2
  | .w8 => 1#2
  | .w1 => 2#2

/-- `kcode` (R29, R189). -/
def keySizeCode : KeySize → BitVec 2
  | .k128 => 0#2
  | .k192 => 1#2
  | .k256 => 2#2

/-- The variant codes (R29). -/
def variantCode : Variant → BitVec 1
  | .reference => 0#1
  | .hardwareAccelerated => 1#1

/-- `CTL` as its 11-bit register (R26): `CUR` 10:8, `VAR` 7, `KC` 6:5, `WC` 4:3, `DIR` 2, `LS` 1:0. -/
def ctlWord (c : Ctl) : BitVec 11 :=
  (c.CUR.setWidth 11 <<< 8) ||| ((variantCode c.VAR).setWidth 11 <<< 7)
    ||| ((keySizeCode c.KC).setWidth 11 <<< 5) ||| ((widthCode c.WC).setWidth 11 <<< 3)
    ||| ((directionCode c.DIR).setWidth 11 <<< 2) ||| (lifecycleCode c.LS).setWidth 11

/-! ### Rows of the constant tables -/

/-- `KS(ref)` (R34). -/
def keySlot (KS : Vector KeySlot 256) (ref : KsRef) : KeySlot := KS.get ref.toFin

/-- The row of the dispatch table for a pair (R36). -/
def dispatchRow (t : DispatchTable) (k : KeySize) (w : Width) : Variant :=
  match k, w with
  | .k128, .w128 => t.k128w128
  | .k128, .w8 => t.k128w8
  | .k128, .w1 => t.k128w1
  | .k192, .w128 => t.k192w128
  | .k192, .w8 => t.k192w8
  | .k192, .w1 => t.k192w1
  | .k256, .w128 => t.k256w128
  | .k256, .w8 => t.k256w8
  | .k256, .w1 => t.k256w1

/-! ### Bytes of a block -/

/-- `B[i]` for `i = 0 .. 15` (R12): byte 0 is the most significant, bits 127..120. -/
def byteAt (b : Block) (i : Nat) : Byte := b.extractLsb' (8 * (15 - i)) 8

/-- The 16 bytes `B[0] .. B[15]`, first byte first (R12). -/
def blockBytes (b : Block) : List Byte := (List.range 16).map (byteAt b)

/-- `((v << 8) | c)` kept to 128 bits (R137): every byte moves one place to the left, the first is lost
and `c` enters at the rightmost position. -/
def shiftInByte (b : Block) (c : Byte) : Block := (b <<< 8) ||| c.setWidth 128

/-- `val(B)` of a byte sequence, first byte most significant (R12); of more than 16 bytes, the last 16. -/
def blockOfBytes (bs : List Byte) : Block := bs.foldl shiftInByte 0#128

/-! ### Bits -/

/-- `((v << 1) | c)` kept to 128 bits (R153): bit 127 is lost and `c` becomes bit 0. -/
def shiftInBit (b : Block) (c : Bool) : Block := (b <<< 1) ||| (BitVec.ofBool c).setWidth 128

/-- The bits of a byte in the order CFB1 takes them, bit 7 first (R54, R151). -/
def bitsOfByte (x : Byte) : List Bool := [7, 6, 5, 4, 3, 2, 1, 0].map x.getLsbD

/-- The byte whose bits are given, bit 7 first (R54, R151). -/
def byteOfBits (bs : List Bool) : Byte :=
  bs.foldl (fun acc b => (acc <<< 1) ||| (BitVec.ofBool b).setWidth 8) 0#8

/-- The "MSB" of a block: bit 7 of its byte 0 (R12, R54). -/
def msbOfBlock (b : Block) : Bool := (byteAt b 0).getLsbD 7

end Sys2Proof.Machine
end

