-- ==== Sys2Proof/Machine/Ops.lean ====
section
/-! DEFINITION. The operations the commands share: answering, raising an error, the selector, the passage of
a unit step over a sequence, and what happens at the port.
`spec/30_encoding.md` R80; `spec/60_exceptions.md` R217, R218; `spec/44_select_dispatch.md` R170 to R172;
`spec/70_reset_and_hazards.md` R240 to R245. -/

namespace Sys2Proof.Machine

/-! ### Responses and errors -/

/-- `respond(st, info, payload)` to a command with opcode `opc` (R80): exactly one response is sent. -/
def respond (opc : BitVec 4) (st : Status) (info : BitVec 24) (payload : List Byte) (s : State) : State :=
  { s with responses := s.responses ++ [⟨responseWord opc st info, payload⟩] }

/-- `raise <Error>` (R217, R218): no output payload, no state written, the response carries the code.
There is no handler and no return (R219): the engine is ready for the next command. -/
def raise (opc : BitVec 4) (error : Status) (s : State) : State := respond opc error 0#24 [] s

/-! ### The selector -/

/-- An engine handle (R172): the triple `(KC, WC, VAR)`. -/
structure Handle where
  kc : KeySize
  wc : Width
  var : Variant
deriving DecidableEq, Repr

/-- `select(key_size_bits, feedback_width)` (R170, R171): a pure lookup of two natural numbers in the
dispatch table; `none` is `UnsupportedConfiguration` (R174). -/
def select (table : DispatchTable) (keyBits fwBits : Nat) : Option Handle :=
  match keySizeOfBits keyBits, widthOfBits fwBits with
  | some k, some w => some ⟨k, w, dispatchRow table k w⟩
  | _, _ => none

/-- The handle as 8 bits (R82): `0x80 | (VAR << 4) | (KC << 2) | WC`. -/
def handleByte (h : Handle) : BitVec 8 :=
  0x80#8 ||| ((variantCode h.var).setWidth 8 <<< 4) ||| ((keySizeCode h.kc).setWidth 8 <<< 2)
    ||| (widthCode h.wc).setWidth 8

/-! ### Units in sequence -/

/-- Passes a unit step over a sequence, first element first, each step on the state the step before left
(R58): the final state and the results in order. -/
def passUnits {σ α β : Type} (unit : σ → α → σ × β) : σ → List α → σ × List β
  | r, [] => (r, [])
  | r, x :: xs =>
    match unit r x with
    | (r', y) =>
      match passUnits unit r' xs with
      | (r'', ys) => (r'', y :: ys)

/-- The states at which the steps of `passUnits` begin, in order. -/
def unitStarts {σ α β : Type} (unit : σ → α → σ × β) : σ → List α → List σ
  | _, [] => []
  | r, x :: xs => r :: unitStarts unit (unit r x).1 xs

/-! ### The port -/

/-- Nothing is presented: the engine waits (R241). -/
def waitForEvent (s : State) : Host.Outcome State Fault Refusal := .next s

/-- The registers after a reset (R240): `CTL.LS = Uninit`; every other register is unspecified (R39), the
free values of this reset (log 5). `KS` and `HWREG` are not touched (R39, R242). -/
def resetRegisters (s : State) : State :=
  { s with
    FB := Config.resetFB (s.resets + 1)
    CTL :=
      { LS := .uninit
        DIR := Config.resetDIR (s.resets + 1)
        WC := Config.resetWC (s.resets + 1)
        KC := Config.resetKC (s.resets + 1)
        VAR := Config.resetVAR (s.resets + 1)
        CUR := Config.resetCUR (s.resets + 1) }
    KSREF := Config.resetKSREF (s.resets + 1)
    resets := s.resets + 1 }

/-- A reset is taken; a command in progress is abandoned without a response (R243). -/
def takeReset (_inProgress : Option Command) (s : State) : Host.Outcome State Fault Refusal :=
  .next (resetRegisters s)

/-- An illegal header (R77): `IllegalCommand`, whichever way the header is illegal. -/
def answerIllegal (c : Command) (_why : DecodeError) (s : State) : Host.Outcome State Fault Refusal :=
  .next (raise (opcodeOf c.header) .illegalCommand s)

/-- A pair that is no command (R71, D25). -/
def refuseIllFramed (_c : Command) (_s : State) : Host.Outcome State Fault Refusal :=
  .refused .illFramedCommand

end Sys2Proof.Machine
end

