-- ==== Sys2Proof/Machine/Init.lean ====
section
/-! DEFINITION. The INIT command. `spec/45_init_lifecycle.md` R185 to R202. -/

namespace Sys2Proof.Machine

/-- The state writes of a successful `INIT` (R189, R190, R191): every bit of `FB`, `CTL` and `KSREF`. -/
def beginContext (h : Handle) (dir : Direction) (ksref : KsRef) (iv : List Byte) (s : State) : State :=
  { s with
    FB := blockOfBytes iv
    CTL := { LS := .initialized, DIR := dir, WC := h.wc, KC := h.kc, VAR := h.var, CUR := 0#3 }
    KSREF := ksref }

/-- `INIT` (R192): the checks of R187 in their order, the internal selection of R188, then the context.
Once the key size is good, `select` fails exactly on a bad width, which is check (2). -/
def execInit (dir : Direction) (fw : BitVec 8) (ksref : KsRef) (iv : List Byte) (s : State) :
    Host.Outcome State Fault Refusal :=
  .next
    (match keySizeOfBits (keySlot s.KS ksref).ksb with
    | none => raise 2#4 .invalidKeySize s
    | some _ =>
      match select s.HWREG (keySlot s.KS ksref).ksb fw.toNat with
      | none => raise 2#4 .unsupportedConfiguration s
      | some h =>
        if iv.length = 16 then respond 2#4 .ok 0#24 [] (beginContext h dir ksref iv s)
        else raise 2#4 .invalidIvLength s)

end Sys2Proof.Machine
end

