-- ==== Sys2Proof/Machine/Cfb.lean ====
section
/-! DEFINITION. The three CFB algorithms, over any block function `enc` standing for `E(rk, ·)` (R13, D27).
`spec/40_process.md` R105, R106; `spec/41_cfb128.md` R121 to R124; `spec/42_cfb8.md` R136, R137;
`spec/43_cfb1.md` R151 to R154. -/

namespace Sys2Proof.Machine

/-- What one `PROCESS` of non-zero length leaves and returns: `FB`, `CTL.CUR`, `CTL.LS` and the output. -/
structure Pass where
  fb : Block
  cur : BitVec 3
  ls : Lifecycle
  out : List Byte
deriving DecidableEq, Repr

/-- The fed-back unit (R106): "CFB always feeds back the ciphertext", the output unit on encrypt and the
input unit on decrypt. The only place the direction acts. -/
def fedBack {α : Type} (dir : Direction) (outUnit inUnit : α) : α :=
  match dir with
  | .encrypt => outUnit
  | .decrypt => inUnit

/-! ### CFB128 -/

/-- The first `n` chunks of 16 bytes, as blocks (R120). -/
def fullChunks : Nat → List Byte → List Block
  | 0, _ => []
  | n + 1, xs => blockOfBytes (xs.take 16) :: fullChunks n (xs.drop 16)

/-- One full chunk (R121, R122): the output block, and `FB` replaced by the ciphertext block. -/
def chunkUnit (enc : Block → Block) (dir : Direction) (fb x : Block) : Block × Block :=
  (fedBack dir (x ^^^ enc fb) x, x ^^^ enc fb)

/-- A partial chunk (R121, R124): masked with the first bytes of one further keystream block. -/
def maskPartial (ks : Block) (xs : List Byte) : List Byte :=
  List.zipWith (fun x k => x ^^^ k) xs (blockBytes ks)

/-- CFB128 (R121): the full chunks in order, then the partial chunk, which writes no `FB` and exhausts the
context (R124). -/
def cfb128 (enc : Block → Block) (dir : Direction) (fb : Block) (cur : BitVec 3) (input : List Byte) : Pass :=
  let n := input.length / 16
  let r := input.length % 16
  match passUnits (chunkUnit enc dir) fb (fullChunks n input) with
  | (fb', blocks) =>
    { fb := fb'
      cur := cur
      ls := if r = 0 then .inUse else .exhausted
      out := blocks.flatMap blockBytes
        ++ if r = 0 then [] else maskPartial (enc fb') (input.drop (16 * n)) }

/-! ### CFB8 -/

/-- One byte step (R136, R137): only `ks[0]` is used. -/
def byteUnit (enc : Block → Block) (dir : Direction) (fb : Block) (x : Byte) : Block × Byte :=
  let o := x ^^^ byteAt (enc fb) 0
  (shiftInByte fb (fedBack dir o x), o)

/-- CFB8 (R136). -/
def cfb8 (enc : Block → Block) (dir : Direction) (fb : Block) (cur : BitVec 3) (input : List Byte) : Pass :=
  match passUnits (byteUnit enc dir) fb input with
  | (fb', out) => { fb := fb', cur := cur, ls := .inUse, out := out }

/-! ### CFB1 -/

/-- One bit step (R152, R153, R154) on `FB` and `CTL.CUR`: only the MSB of the block is used, and the
cursor counts modulo 8. -/
def bitUnit (enc : Block → Block) (dir : Direction) (r : Block × BitVec 3) (ibit : Bool) :
    (Block × BitVec 3) × Bool :=
  let obit := ibit ^^ msbOfBlock (enc r.1)
  ((shiftInBit r.1 (fedBack dir obit ibit), r.2 + 1#3), obit)

/-- The eight bit steps of one input byte, bit 7 first, and its output byte (R152). -/
def bitsUnit (enc : Block → Block) (dir : Direction) (r : Block × BitVec 3) (x : Byte) :
    (Block × BitVec 3) × Byte :=
  match passUnits (bitUnit enc dir) r (bitsOfByte x) with
  | (r', obits) => (r', byteOfBits obits)

/-- CFB1 (R152). -/
def cfb1 (enc : Block → Block) (dir : Direction) (fb : Block) (cur : BitVec 3) (input : List Byte) : Pass :=
  match passUnits (bitsUnit enc dir) (fb, cur) input with
  | (r, out) => { fb := r.1, cur := r.2, ls := .inUse, out := out }

/-- The algorithm, chosen by `CTL.WC` alone (R104). -/
def cfb (w : Width) (enc : Block → Block) (dir : Direction) (fb : Block) (cur : BitVec 3)
    (input : List Byte) : Pass :=
  match w with
  | .w128 => cfb128 enc dir fb cur input
  | .w8 => cfb8 enc dir fb cur input
  | .w1 => cfb1 enc dir fb cur input

/-! ### The evaluations of `E` -/

/-- The values at which a CFB pass evaluates `E`, in order (R107). A ghost: no rule reads it (R40). -/
def cfbEvaluations (w : Width) (enc : Block → Block) (dir : Direction) (fb : Block) (cur : BitVec 3)
    (input : List Byte) : List Block :=
  match w with
  | .w128 =>
    let chunks := fullChunks (input.length / 16) input
    unitStarts (chunkUnit enc dir) fb chunks
      ++ if input.length % 16 = 0 then [] else [(passUnits (chunkUnit enc dir) fb chunks).1]
  | .w8 => unitStarts (byteUnit enc dir) fb input
  | .w1 =>
    (List.zip (unitStarts (bitsUnit enc dir) (fb, cur) input) input).flatMap fun p =>
      (unitStarts (bitUnit enc dir) p.1 (bitsOfByte p.2)).map Prod.fst

end Sys2Proof.Machine
end

