-- ==== Sys2Proof/Machine/Process.lean ====
section
/-! DEFINITION. The PROCESS command. `spec/40_process.md` R100 to R114. -/

namespace Sys2Proof.Machine

/-- `E(rk, ·)` with the round keys of the borrowed key schedule, `rk = KS(KSREF).rk` (R31, R102). -/
def contextCipher (E : RoundKeys → Block → Block) (s : State) : Block → Block :=
  E (keySlot s.KS s.KSREF).rk

/-- The pass of a non-empty `PROCESS` over the context's fields (R102). -/
def contextPass (E : RoundKeys → Block → Block) (input : List Byte) (s : State) : Pass :=
  cfb s.CTL.WC (contextCipher E s) s.CTL.DIR s.FB s.CTL.CUR input

/-- The state writes of a successful `PROCESS` of non-zero length (R33, R108): `FB`, `CTL.LS` and, in CFB1,
`CTL.CUR`. -/
def storePass (p : Pass) (s : State) : State :=
  { s with FB := p.fb, CTL := { s.CTL with LS := p.ls, CUR := p.cur } }

/-- `PROCESS` on an accepting context (R102, R103): a zero-length input writes nothing. -/
def processStream (E : RoundKeys → Block → Block) (input : List Byte) (s : State) : State :=
  match input with
  | [] => respond 3#4 .ok 0#24 [] s
  | _ :: _ =>
    let p := contextPass E input s
    respond 3#4 .ok (BitVec.ofNat 24 input.length) p.out (storePass p s)

/-- `PROCESS` (R102) over any block function: the lifecycle test first (R101). -/
def process (E : RoundKeys → Block → Block) (input : List Byte) (s : State) : State :=
  match s.CTL.LS with
  | .uninit => raise 3#4 .uninitializedContext s
  | .exhausted => raise 3#4 .streamExhausted s
  | .initialized => processStream E input s
  | .inUse => processStream E input s

/-- `PROCESS bytes` (R100), with the engine's block cipher `Config.E`. -/
def execProcess (input : List Byte) (s : State) : Host.Outcome State Fault Refusal :=
  .next (process Config.E input s)

/-- The values at which `PROCESS` evaluates `E`, in order (R107): none for an error (R101) or an empty
input (R103). A ghost: no rule reads it (R40). -/
def processEvaluations (E : RoundKeys → Block → Block) (input : List Byte) (s : State) : List Block :=
  match s.CTL.LS, input with
  | .uninit, _ => []
  | .exhausted, _ => []
  | .initialized, xs => cfbEvaluations s.CTL.WC (contextCipher E s) s.CTL.DIR s.FB s.CTL.CUR xs
  | .inUse, xs => cfbEvaluations s.CTL.WC (contextCipher E s) s.CTL.DIR s.FB s.CTL.CUR xs

end Sys2Proof.Machine
end

