-- ==== Sys2Proof/Machine/Select.lean ====
section
/-! DEFINITION. The SELECT command. `spec/44_select_dispatch.md` R173 to R178. -/

namespace Sys2Proof.Machine

/-- `SELECT ksb, fw` (R173): a query of the selector, in every lifecycle state, writing no state. -/
def execSelect (ksb : BitVec 12) (fw : BitVec 8) (s : State) : Host.Outcome State Fault Refusal :=
  .next
    (match select s.HWREG ksb.toNat fw.toNat with
    | none => raise 1#4 .unsupportedConfiguration s
    | some h => respond 1#4 .ok ((handleByte h).setWidth 24) [] s)

end Sys2Proof.Machine
end

