-- ==== Sys2Proof/Machine/Dispatch.lean ====
section
/-! DEFINITION. One arm per command (`spec/30_encoding.md` R70). -/

namespace Sys2Proof.Machine

def exec (i : Instr) (s : State) : Host.Outcome State Fault Refusal :=
  match i with
  | .select ksb fw => Sys2Proof.Machine.execSelect ksb fw s
  | .init dir fw ksref iv => Sys2Proof.Machine.execInit dir fw ksref iv s
  | .process input => Sys2Proof.Machine.execProcess input s

end Sys2Proof.Machine
end

