-- ==== Sys2Proof/Machine/Step.lean ====
section
/-! DEFINITION. One step: what the host presents next is taken and completed.
`spec/20_memory.md` R57, R58; `spec/30_encoding.md` R71, R77; `spec/70_reset_and_hazards.md` R241, R243, R245. -/

namespace Sys2Proof.Machine

/-- One step (R58, R245). With nothing presented the engine waits (R241). A reset is taken (R243). A pair
that is not framed is refused at the boundary (R71); a command with an illegal header is answered (R77);
any other is decoded and executed to completion. -/
def step (s : State) : Host.Outcome State Fault Refusal :=
  match s.events with
  | [] => waitForEvent s
  | .reset inProgress :: rest => takeReset inProgress { s with events := rest }
  | .command c :: rest =>
    if framed c = true then
      match decode c with
      | .ok i => exec i { s with events := rest }
      | .error why => answerIllegal c why { s with events := rest }
    else refuseIllFramed c { s with events := rest }

/-- `s` with the command whose bits are `w` presented next (log 10): the host's next event is that command,
with a payload of the length its header declares. -/
def State.withFetchWord (s : State) (nbits w : Nat) : State :=
  { s with events := .command (commandOfTableWord nbits w) :: s.events }

end Sys2Proof.Machine
end

