-- ==== Sys2Proof/Safety.lean ====
section
/-! DEFINITION. The terms in which claims about the engine are stated: when a context accepts data, what a
reachable context satisfies, the stream a context has processed, runs of commands, equality of engines.
`spec/10_state.md` R22, R29, R30, R37; `spec/40_process.md` R101, R111. -/

namespace Sys2Proof.Machine

/-- `PROCESS` is accepted (R24, R101): the context is `Initialized` or `InUse`. -/
abbrev State.accepting (s : State) : Prop := s.CTL.LS = .initialized ∨ s.CTL.LS = .inUse

/-- The context invariant. While a context exists its cursor is 0 at every command boundary (R30), its key
size is the one recorded with the borrowed schedule and its variant the one the dispatch table holds
for the pair (R29, R188, R189), and only CFB128 is ever exhausted (R24, R138, R155). -/
abbrev State.contextInv (s : State) : Prop :=
  s.CTL.LS ≠ .uninit →
    s.CTL.CUR = 0#3
      ∧ (keySlot s.KS s.KSREF).ksb = keySizeBits s.CTL.KC
      ∧ s.CTL.VAR = dispatchRow s.HWREG s.CTL.KC s.CTL.WC
      ∧ (s.CTL.LS = .exhausted → s.CTL.WC = .w128)

/-- The same engine (R37): equal registers, equal key-schedule store, equal dispatch table. What the host
has still to present, what it has been answered and how many resets there were may differ. -/
abbrev State.sameEngine (s t : State) : Prop :=
  s.FB = t.FB ∧ s.CTL = t.CTL ∧ s.KSREF = t.KSREF ∧ s.KS = t.KS ∧ s.HWREG = t.HWREG

/-- A state with one more response sent and nothing else changed. -/
def State.answered (s : State) (word : Word) (payload : List Byte) : State :=
  { s with responses := s.responses ++ [⟨word, payload⟩] }

/-- The output payload of the last response sent. -/
def State.lastOutput (s : State) : List Byte :=
  match s.responses.getLast? with
  | some r => r.payload
  | none => []

/-- The output payloads of the responses sent after the first `n`, in order, joined. -/
def State.outputsAfter (s : State) (n : Nat) : List Byte :=
  (s.responses.drop n).flatMap Response.payload

/-- A sequence of commands, each to completion (R58). -/
def execAll : List Instr → State → Host.Outcome State Fault Refusal
  | [], s => .next s
  | i :: is, s =>
    match exec i s with
    | .next t => execAll is t
    | .fault r => .fault r
    | .refused r => .refused r

/-- The operands an `INIT` needs to succeed (R187): a supported key size recorded in the slot, a supported
width, 16 IV bytes. -/
abbrev State.initSucceeds (s : State) (fw : BitVec 8) (ksref : KsRef) (iv : List Byte) : Prop :=
  ((keySlot s.KS ksref).ksb = 128 ∨ (keySlot s.KS ksref).ksb = 192 ∨ (keySlot s.KS ksref).ksb = 256)
    ∧ (fw.toNat = 128 ∨ fw.toNat = 8 ∨ fw.toNat = 1)
    ∧ iv.length = 16

/-- The number of bytes of an input that belong to whole units (R22): in CFB128 the bytes of a partial
chunk do not. -/
def wholeUnitBytes (w : Width) (len : Nat) : Nat :=
  match w with
  | .w128 => 16 * (len / 16)
  | .w8 => len
  | .w1 => len

/-- The string `S` of R22 after command `i` took `s` to `t`, when it was `stream` before: a successful
`INIT` begins it anew with the IV, and an accepted `PROCESS` adds the ciphertext of its whole units,
which is the output on encrypt and the input on decrypt. -/
def streamAfter (stream : List Byte) (i : Instr) (s t : State) : List Byte :=
  match i with
  | .select _ _ => stream
  | .init _ fw ksref iv => if s.initSucceeds fw ksref iv then iv else stream
  | .process input =>
    if s.accepting then
      stream ++ (fedBack s.CTL.DIR t.lastOutput input).take (wholeUnitBytes s.CTL.WC input.length)
    else stream

/-- `FBV` is the last 128 bits of `stream` (R22), while a context exists. -/
def State.holdsStream (s : State) (stream : List Byte) : Prop :=
  s.CTL.LS ≠ .uninit →
    16 ≤ stream.length ∧ blockBytes s.FB = stream.drop (stream.length - 16)

/-- Every command the host will present is framed (R71, D25): no step of such a run is refused. -/
def State.portFramed (s : State) : Prop := ∀ c, Event.command c ∈ s.events → framed c = true

/-- The table of R176: key size, width, their numbers of bits, and the handle when the row holds Reference and
when it holds HardwareAccelerated. -/
def handleTable : List (KeySize × Width × BitVec 12 × BitVec 8 × Word × Word) :=
  [(.k128, .w128, 128#12, 128#8, 0x80#32, 0x90#32),
   (.k128, .w8, 128#12, 8#8, 0x81#32, 0x91#32),
   (.k128, .w1, 128#12, 1#8, 0x82#32, 0x92#32),
   (.k192, .w128, 192#12, 128#8, 0x84#32, 0x94#32),
   (.k192, .w8, 192#12, 8#8, 0x85#32, 0x95#32),
   (.k192, .w1, 192#12, 1#8, 0x86#32, 0x96#32),
   (.k256, .w128, 256#12, 128#8, 0x88#32, 0x98#32),
   (.k256, .w8, 256#12, 8#8, 0x89#32, 0x99#32),
   (.k256, .w1, 256#12, 1#8, 0x8A#32, 0x9A#32)]

end Sys2Proof.Machine
end

