-- ==== Sys2Proof/Certificates/Slice0/Obligations.lean ====
section
/-! DEFINITION. The statements about the engine, from the numbered rules of `spec/`. They state and never prove.
`s.answered word payload` is `s` with one more response and nothing else changed; every conclusion that gives the
next state as `s.answered …` or as a record update of `s` is therefore also the command's frame. -/

open Sys2Proof Sys2Proof.Machine

/-! ### Reset and the port -/

/-- R243 (with R240, R39): a reset leaves `CTL.LS = Uninit`, sends no response for the command it abandons, and
leaves the constants of the run alone; and every command that is executed gets a response, so that a reset is
the only way a command ends without one. That the host's log and its later events stay is the model's own
(logs 3, 4, 7). -/
def Obligations.ResetAbandonsTheCommandWithoutResponse : Prop :=
  State.reset.CTL.LS = .uninit
    ∧ (∀ (s : State) (inProgress : Option Command) (rest : List Event),
        s.events = .reset inProgress :: rest →
        ∃ t, step s = .next t ∧ t.CTL.LS = .uninit ∧ t.KS = s.KS ∧ t.HWREG = s.HWREG
          ∧ t.events = rest ∧ t.responses = s.responses)
    ∧ ∀ (s : State) (c : Command) (rest : List Event),
        s.events = .command c :: rest → framed c = true →
        ∃ t r, step s = .next t ∧ t.responses = s.responses ++ [r]

/-- R39: after a reset no register but `CTL.LS` can be read before it is written. Two engines in `Uninit` that
agree on the constants of the run answer every command alike, and afterwards both are still in `Uninit` or
all their registers are equal. -/
def Obligations.UninitRegistersCannotBeRead : Prop :=
  ∀ (i : Instr) (s s' : State),
    s.CTL.LS = .uninit → s'.CTL.LS = .uninit → s.KS = s'.KS → s.HWREG = s'.HWREG →
    ∃ t t' r,
      exec i s = .next t ∧ exec i s' = .next t'
        ∧ t.responses = s.responses ++ [r] ∧ t'.responses = s'.responses ++ [r]
        ∧ ((t.CTL.LS = .uninit ∧ t'.CTL.LS = .uninit) ∨ t.sameEngine t')

/-- R241: with no command presented the engine waits. -/
def Obligations.IdleEngineWaits : Prop := ∀ s : State, s.events = [] → step s = .next s

/-- A step runs the decoded command (R58, R71, R76): when the command at the port is framed and its header
decodes to `i`, then `i` is well formed and the step is `exec i` on the state past that command. -/
def Obligations.StepRunsTheDecodedCommand : Prop :=
  ∀ (s : State) (c : Command) (rest : List Event) (i : Instr),
    s.events = .command c :: rest → framed c = true → decode c = .ok i →
    i.wellFormed = true ∧ step s = exec i { s with events := rest }

/-- R77: a framed command whose header matches no row of R76 is consumed, answered with `IllegalCommand` (code 6)
and the echo of its opcode, has no output payload and changes no register. -/
def Obligations.IllegalHeaderIsAnsweredAndChangesNothing : Prop :=
  ∀ (s : State) (c : Command) (rest : List Event),
    s.events = .command c :: rest → framed c = true →
    c.header &&& 0xF00000FF#32 ≠ 0x10000000#32 →
    c.header &&& 0xF7000000#32 ≠ 0x20000000#32 →
    c.header &&& 0xFF000000#32 ≠ 0x30000000#32 →
    step s = .next
      ({ s with events := rest }.answered ((c.header &&& 0xF0000000#32) ||| 0x06000000#32) [])

/-- R71: `plen` from the opcode and one length field, whatever the other bits; a pair whose payload has another
length is refused at the boundary. -/
def Obligations.IllFramedPairIsRefused : Prop :=
  (∀ h : Word, h >>> 28 = 2#32 → plen h = ((h >>> 8) &&& 0xFF#32).toNat)
    ∧ (∀ h : Word, h >>> 28 = 3#32 → plen h = (h &&& 0xFFFFFF#32).toNat)
    ∧ (∀ h : Word, h >>> 28 ≠ 2#32 → h >>> 28 ≠ 3#32 → plen h = 0)
    ∧ ∀ (s : State) (c : Command) (rest : List Event),
        s.events = .command c :: rest → c.payload.length ≠ plen c.header →
        step s = .refused .illFramedCommand

/-- R251: while every pair the host presents is framed, each step completes, and the rest stays framed. -/
def Obligations.FramedPortNeverStops : Prop :=
  ∀ s : State, s.portFramed → ∃ t, step s = .next t ∧ t.portFramed

/-- R80 and R217: every command is answered by exactly one response that echoes the opcode; the payload is the
`LEN` output bytes of a successful `PROCESS` and empty otherwise; an error has `INFO = 0`, no payload, and
leaves the state as it was. -/
def Obligations.EveryCommandIsAnsweredOnceAndErrorsArePrecise : Prop :=
  ∀ (s : State) (c : Command) (rest : List Event),
    s.events = .command c :: rest → framed c = true →
    ∃ t r, step s = .next t
      ∧ t.events = rest
      ∧ t.responses = s.responses ++ [r]
      ∧ r.word &&& 0xF0000000#32 = c.header &&& 0xF0000000#32
      ∧ (r.word &&& 0x0F000000#32 ≠ 0#32 →
          r.word &&& 0x00FFFFFF#32 = 0#32 ∧ r.payload = []
            ∧ t = { s with events := rest }.answered r.word [])
      ∧ (r.word &&& 0x0F000000#32 = 0#32 → c.header >>> 28 = 3#32 →
          r.payload.length = plen c.header ∧ (r.word &&& 0x00FFFFFF#32).toNat = plen c.header)
      ∧ (c.header >>> 28 ≠ 3#32 → r.payload = [])
      ∧ (r.word &&& 0x0F000000#32 = 0#32 → c.header >>> 28 = 2#32 → r.word &&& 0x00FFFFFF#32 = 0#32)
      ∧ (r.word &&& 0x0F000000#32 = 0#32 → c.header >>> 28 = 1#32 → r.word &&& 0x00FFFF00#32 = 0#32)

/-- R34, R36, R242: no step writes the key-schedule store or the dispatch table. -/
def Obligations.RunConstantsNeverChange : Prop :=
  ∀ s t : State, step s = .next t → t.KS = s.KS ∧ t.HWREG = s.HWREG

/-! ### Encoding -/

/-- Headline (R72 to R76): decoding the encoding of any well-formed instruction gives it back, with every operand
at every value. -/
def Obligations.DecodeOfEncodeIsTheInstruction : Prop :=
  ∀ i : Instr, i.wellFormed = true → framed (encode i) = true ∧ decode (encode i) = .ok i

/-- Each legal framed command has one meaning and one encoding (R72 to R79). -/
def Obligations.EncodeOfDecodeIsTheCommand : Prop :=
  ∀ (c : Command) (i : Instr), framed c = true → decode c = .ok i → i.wellFormed = true ∧ encode i = c

/-- R76: a header decodes to `SELECT`, `INIT` or `PROCESS` exactly when `(header & mask) = match` for that command's
row, and then to the operands its pattern names: `KSB` in bits 27:16 and `FW` in 15:8; `DIR` in bit 27, `FW` in
23:16 and `KSREF` in 7:0. The payload is the IV or the input, and its length is the length field (R71). -/
def Obligations.HeaderDecodesExactlyWhenItsRowMatches : Prop :=
  ∀ c : Command,
    (∀ ksb fw, decode c = .ok (.select ksb fw) ↔
        c.header &&& 0xF00000FF#32 = 0x10000000#32
          ∧ ksb.setWidth 32 = (c.header >>> 16) &&& 0xFFF#32 ∧ fw.setWidth 32 = (c.header >>> 8) &&& 0xFF#32)
      ∧ (∀ dir fw ksref iv, decode c = .ok (.init dir fw ksref iv) ↔
        c.header &&& 0xF7000000#32 = 0x20000000#32
          ∧ (dir = .decrypt ↔ c.header &&& 0x08000000#32 ≠ 0#32)
          ∧ fw.setWidth 32 = (c.header >>> 16) &&& 0xFF#32 ∧ ksref.setWidth 32 = c.header &&& 0xFF#32
          ∧ iv = c.payload)
      ∧ ∀ input, decode c = .ok (.process input) ↔
        c.header &&& 0xFF000000#32 = 0x30000000#32 ∧ input = c.payload

/-- The worked headers of R84 decode to the commands they stand for (R84). -/
def Obligations.WorkedHeadersDecode : Prop :=
  decode ⟨0x10808000#32, []⟩ = .ok (.select 128#12 128#8)
    ∧ decode ⟨0x10C00800#32, []⟩ = .ok (.select 192#12 8#8)
    ∧ decode ⟨0x11000100#32, []⟩ = .ok (.select 256#12 1#8)
    ∧ decode ⟨0x10608000#32, []⟩ = .ok (.select 96#12 128#8)
    ∧ decode ⟨0x10800700#32, []⟩ = .ok (.select 128#12 7#8)
    ∧ decode ⟨0x20801000#32, List.replicate 16 0#8⟩
        = .ok (.init .encrypt 128#8 0#8 (List.replicate 16 0#8))
    ∧ decode ⟨0x28801000#32, List.replicate 16 0#8⟩
        = .ok (.init .decrypt 128#8 0#8 (List.replicate 16 0#8))
    ∧ decode ⟨0x28011003#32, List.replicate 16 0#8⟩
        = .ok (.init .decrypt 1#8 3#8 (List.replicate 16 0#8))
    ∧ decode ⟨0x30000014#32, List.replicate 20 0#8⟩ = .ok (.process (List.replicate 20 0#8))
    ∧ decode ⟨0x40000000#32, []⟩ = .error .unassignedOpcode
    ∧ decode ⟨0x31000004#32, List.replicate 4 0#8⟩ = .error .reservedBitSet

/-- R26 with the codes of R24, R27, R28, R29: the layout of `CTL`, field by field, and that the 11 bits determine
the register. -/
def Obligations.CtlLayout : Prop :=
  (∀ c : Ctl,
    ((ctlWord c).extractLsb' 0 2 = match c.LS with
        | .uninit => 0#2
        | .initialized => 1#2
        | .inUse => 2#2
        | .exhausted => 3#2)
      ∧ ((ctlWord c).extractLsb' 2 1 = if c.DIR = .decrypt then 1#1 else 0#1)
      ∧ ((ctlWord c).extractLsb' 3 2 = match c.WC with
        | .w128 => 0#2
        | .w8 => 1#2
        | .w1 => 2#2)
      ∧ ((ctlWord c).extractLsb' 5 2 = match c.KC with
        | .k128 => 0#2
        | .k192 => 1#2
        | .k256 => 2#2)
      ∧ ((ctlWord c).extractLsb' 7 1 = if c.VAR = .hardwareAccelerated then 1#1 else 0#1)
      ∧ (ctlWord c).extractLsb' 8 3 = c.CUR)
    ∧ ∀ c d : Ctl, ctlWord c = ctlWord d → c = d

/-! ### SELECT -/

/-- R176 (with R171, R173, R175): in every lifecycle state `SELECT` of a supported pair answers the handle of
the table, and changes nothing else. -/
def Obligations.SelectAnswersTheHandleOfTheTable : Prop :=
  ∀ (s : State), ∀ row ∈ handleTable,
    exec (.select row.2.2.1 row.2.2.2.1) s = .next
      (s.answered
        (0x10000000#32 |||
          if dispatchRow s.HWREG row.1 row.2.1 = .hardwareAccelerated then row.2.2.2.2.2
          else row.2.2.2.2.1) [])

/-- R174: `SELECT` answers `UnsupportedConfiguration` when the key size or the width is not supported, changing
nothing else, and raises no other error: a supported pair is answered with status 0. -/
def Obligations.SelectRefusesExactlyTheUnsupportedPairs : Prop :=
  (∀ (s : State) (ksb : BitVec 12) (fw : BitVec 8),
      (ksb.toNat ≠ 128 ∧ ksb.toNat ≠ 192 ∧ ksb.toNat ≠ 256)
        ∨ (fw.toNat ≠ 128 ∧ fw.toNat ≠ 8 ∧ fw.toNat ≠ 1) →
      exec (.select ksb fw) s = .next (s.answered 0x13000000#32 []))
    ∧ ∀ (s : State) (ksb : BitVec 12) (fw : BitVec 8),
        (ksb.toNat = 128 ∨ ksb.toNat = 192 ∨ ksb.toNat = 256) →
        (fw.toNat = 128 ∨ fw.toNat = 8 ∨ fw.toNat = 1) →
        ∃ handle : BitVec 8,
          exec (.select ksb fw) s = .next (s.answered (0x10000000#32 ||| handle.setWidth 32) [])

/-! ### INIT -/

/-- R189, R190: a successful `INIT`, in every lifecycle state, writes `CTL` field by field with the codes of R189 and
`FB` byte by byte from the IV, records the slot (R191), answers `0x20000000`, and changes nothing else. -/
def Obligations.InitBeginsTheContext : Prop :=
  ∀ (s : State) (dir : Direction) (fw : BitVec 8) (ksref : KsRef) (iv : List Byte) (k : KeySize) (w : Width),
    (keySlot s.KS ksref).ksb = keySizeBits k → fw.toNat = widthBits w → iv.length = 16 →
    ∃ (fb : Block) (var : Variant),
      (∀ i < 16, byteAt fb i = iv.getD i 0#8)
        ∧ (var = .hardwareAccelerated ↔ dispatchRow s.HWREG k w = .hardwareAccelerated)
        ∧ (ctlWord ⟨.initialized, dir, w, k, var, 0#3⟩).toNat =
          1 + (match dir with
            | .encrypt => 0
            | .decrypt => 4)
            + (match widthBits w with
              | 128 => 0
              | 8 => 8
              | _ => 16)
            + (match keySizeBits k with
              | 128 => 0
              | 192 => 32
              | _ => 64)
            + (if var = .hardwareAccelerated then 128 else 0)
        ∧ exec (.init dir fw ksref iv) s = .next
          ({ s with
              FB := fb
              CTL := { LS := .initialized, DIR := dir, WC := w, KC := k, VAR := var, CUR := 0#3 }
              KSREF := ksref }.answered 0x20000000#32 [])

/-- R187 and R194: the errors of `INIT` in the order tested, each leaving everything as it was but for the
response. -/
def Obligations.InitReportsTheFirstErrorAndChangesNothing : Prop :=
  ∀ (s : State) (dir : Direction) (fw : BitVec 8) (ksref : KsRef) (iv : List Byte),
    let ksb := (keySlot s.KS ksref).ksb
    let badKey := ksb ≠ 128 ∧ ksb ≠ 192 ∧ ksb ≠ 256
    let badWidth := fw.toNat ≠ 128 ∧ fw.toNat ≠ 8 ∧ fw.toNat ≠ 1
    (badKey → exec (.init dir fw ksref iv) s = .next (s.answered 0x21000000#32 []))
      ∧ (¬badKey → badWidth → exec (.init dir fw ksref iv) s = .next (s.answered 0x23000000#32 []))
      ∧ (¬badKey → ¬badWidth → iv.length ≠ 16 →
          exec (.init dir fw ksref iv) s = .next (s.answered 0x22000000#32 []))

/-- R199: after a successful `INIT` nothing that happened before can be observed: two engines with equal
constants, given the same `INIT`, hold equal registers and answer every later command sequence alike. -/
def Obligations.InitLeavesNothingOfTheOldContext : Prop :=
  ∀ (s s' : State) (dir : Direction) (fw : BitVec 8) (ksref : KsRef) (iv : List Byte),
    s.KS = s'.KS → s.HWREG = s'.HWREG → s.initSucceeds fw ksref iv →
    ∃ t t',
      exec (.init dir fw ksref iv) s = .next t ∧ exec (.init dir fw ksref iv) s' = .next t'
        ∧ t.sameEngine t'
        ∧ ∀ later : List Instr, ∃ u u' rs,
            execAll later t = .next u ∧ execAll later t' = .next u'
              ∧ u.responses = t.responses ++ rs ∧ u'.responses = t'.responses ++ rs

/-! ### PROCESS -/

/-- R101: `PROCESS` on no context and on an exhausted one is refused for every input, the empty one included,
changing nothing and with no evaluation of the block cipher listed (the list is the model's own device, DESIGN CHOICE,
log 16); on an accepting context it raises no error whatever the input. -/
def Obligations.ProcessIsRefusedOutsideAStream : Prop :=
  ∀ (s : State) (input : List Byte),
    (s.CTL.LS = .uninit → exec (.process input) s = .next (s.answered 0x34000000#32 []))
      ∧ (s.CTL.LS = .exhausted → exec (.process input) s = .next (s.answered 0x35000000#32 []))
      ∧ (s.CTL.LS = .uninit ∨ s.CTL.LS = .exhausted → ∀ E, processEvaluations E input s = [])
      ∧ (s.accepting → ∃ t out, exec (.process input) s = .next t
          ∧ t.responses = s.responses
              ++ [⟨0x30000000#32 ||| (BitVec.ofNat 24 input.length).setWidth 32, out⟩])

/-- R103: an empty `PROCESS` on an accepting context answers `0x30000000` with no bytes, writes no state (the
lifecycle state included), and no evaluation of the block cipher is listed (the list is the model's own device, DESIGN
CHOICE, log 16). -/
def Obligations.EmptyProcessWritesNothing : Prop :=
  ∀ s : State, s.accepting →
    exec (.process []) s = .next (s.answered 0x30000000#32 [])
      ∧ ∀ E, processEvaluations E [] s = []

/-- R121, R122, R124: CFB128. There are register values, from `FB` on, one per full chunk, such that every output
byte is the input byte XOR the keystream byte, each full chunk replaces the register by its ciphertext block,
and a partial chunk is masked with one further block, writes no `FB` and exhausts the context. -/
def Obligations.Cfb128ChunksAreMaskedAndFedBack : Prop :=
  ∀ (s : State) (input : List Byte), s.accepting → s.CTL.WC = .w128 → input ≠ [] →
    let rk := (keySlot s.KS s.KSREF).rk
    let n := input.length / 16
    ∃ (reg : Nat → Block) (out : List Byte),
      reg 0 = s.FB
        ∧ out.length = input.length
        ∧ (∀ j < n, ∀ i < 16,
            out.getD (16 * j + i) 0#8 = input.getD (16 * j + i) 0#8 ^^^ byteAt (Config.E rk (reg j)) i
              ∧ byteAt (reg (j + 1)) i =
                  if s.CTL.DIR = .encrypt then out.getD (16 * j + i) 0#8 else input.getD (16 * j + i) 0#8)
        ∧ (∀ i < input.length % 16,
            out.getD (16 * n + i) 0#8 = input.getD (16 * n + i) 0#8 ^^^ byteAt (Config.E rk (reg n)) i)
        ∧ exec (.process input) s = .next
          ({ s with
              FB := reg n
              CTL := { s.CTL with LS := if input.length % 16 = 0 then .inUse else .exhausted } }.answered
            (0x30000000#32 ||| (BitVec.ofNat 24 input.length).setWidth 32) out)

/-- R136, R137: CFB8. One step per byte: the output byte is the input byte XOR the first keystream byte, every byte
of the register moves one place to the left, and the ciphertext byte enters at the rightmost position. -/
def Obligations.Cfb8BytesAreMaskedAndFedBack : Prop :=
  ∀ (s : State) (input : List Byte), s.accepting → s.CTL.WC = .w8 → input ≠ [] →
    let rk := (keySlot s.KS s.KSREF).rk
    ∃ (reg : Nat → Block) (out : List Byte),
      reg 0 = s.FB
        ∧ out.length = input.length
        ∧ (∀ i < input.length,
            out.getD i 0#8 = input.getD i 0#8 ^^^ byteAt (Config.E rk (reg i)) 0
              ∧ (∀ k < 15, byteAt (reg (i + 1)) k = byteAt (reg i) (k + 1))
              ∧ byteAt (reg (i + 1)) 15 =
                  if s.CTL.DIR = .encrypt then out.getD i 0#8 else input.getD i 0#8)
        ∧ exec (.process input) s = .next
          ({ s with
              FB := reg input.length
              CTL := { s.CTL with LS := .inUse } }.answered
            (0x30000000#32 ||| (BitVec.ofNat 24 input.length).setWidth 32) out)

/-- R151, R152, R153: CFB1. One step per bit, bit 7 of each byte first: the output bit is the input bit XOR bit 7
of the first keystream byte, every bit of the register moves up one, bit 127 is lost and the ciphertext bit
becomes bit 0. After whole bytes the cursor is where it was (R154). -/
def Obligations.Cfb1BitsAreMaskedAndFedBack : Prop :=
  ∀ (s : State) (input : List Byte), s.accepting → s.CTL.WC = .w1 → input ≠ [] →
    let rk := (keySlot s.KS s.KSREF).rk
    ∃ (reg : Nat → Block) (out : List Byte),
      reg 0 = s.FB
        ∧ out.length = input.length
        ∧ (∀ j < 8 * input.length,
            let ibit := (input.getD (j / 8) 0#8).getLsbD (7 - j % 8)
            let obit := (out.getD (j / 8) 0#8).getLsbD (7 - j % 8)
            obit = (ibit ^^ (byteAt (Config.E rk (reg j)) 0).getLsbD 7)
              ∧ ∀ k < 128, (reg (j + 1)).getLsbD k =
                  if k = 0 then (if s.CTL.DIR = .encrypt then obit else ibit) else (reg j).getLsbD (k - 1))
        ∧ exec (.process input) s = .next
          ({ s with
              FB := reg (8 * input.length)
              CTL := { s.CTL with LS := .inUse } }.answered
            (0x30000000#32 ||| (BitVec.ofNat 24 input.length).setWidth 32) out)

/-- R113 (e), R33: whatever `PROCESS` does, it keeps the direction, the width, the key size, the variant, the
cursor and the key-schedule reference, and touches nothing outside the engine's registers but the response. -/
def Obligations.ProcessKeepsTheContextsParameters : Prop :=
  ∀ (s t : State) (input : List Byte), exec (.process input) s = .next t →
    t.CTL = { s.CTL with LS := t.CTL.LS }
      ∧ t.KSREF = s.KSREF ∧ t.KS = s.KS ∧ t.HWREG = s.HWREG
      ∧ t.events = s.events ∧ t.resets = s.resets
      ∧ ∃ r, t.responses = s.responses ++ [r]

/-- R104, R172: the key size and the variant recorded in `CTL` change no result of `PROCESS`. -/
def Obligations.VariantAndKeySizeChangeNoResult : Prop :=
  ∀ (s : State) (input : List Byte) (k : KeySize) (v : Variant),
    ∃ t, exec (.process input) s = .next t
      ∧ exec (.process input) { s with CTL := { s.CTL with KC := k, VAR := v } }
        = .next { t with CTL := { t.CTL with KC := k, VAR := v } }

/-- R51: the output has exactly the length of the input, and output byte `i` never depends on an input byte of a
larger index: inputs that agree on their first `k` bytes have outputs that do. -/
def Obligations.OutputNeverDependsOnLaterInput : Prop :=
  ∀ (s : State) (input input' : List Byte) (k : Nat), s.accepting →
    input.take k = input'.take k →
    ∃ t t', exec (.process input) s = .next t ∧ exec (.process input') s = .next t'
      ∧ t.lastOutput.length = input.length ∧ t'.lastOutput.length = input'.length
      ∧ t.lastOutput.take k = t'.lastOutput.take k

/-- R107 (with R101, R103): the length of the list `processEvaluations`, for every block function: `ceil(LEN / 16)`,
`LEN` or `8 * LEN` by width on an accepting context, none on any other. The list is the model's own device (DESIGN
CHOICE, log 16), a function beside the meaning; this statement counts it and says nothing of `exec`. That what is
listed is all `PROCESS` takes from the cipher is `ResultDependsOnlyOnTheListedEvaluations`. -/
def Obligations.EvaluationsAreCountedByWidth : Prop :=
  ∀ (E : RoundKeys → Block → Block) (s : State) (input : List Byte),
    (s.accepting →
      (processEvaluations E input s).length =
        match s.CTL.WC with
        | .w128 => (input.length + 15) / 16
        | .w8 => input.length
        | .w1 => 8 * input.length)
      ∧ (¬s.accepting → processEvaluations E input s = [])

/-- R107: the evaluations of the model's list `processEvaluations` (DESIGN CHOICE, log 16) are all that `PROCESS` takes
from the block cipher: two block functions that agree on them, under the context's round keys, give the same next
state and the same response. -/
def Obligations.ResultDependsOnlyOnTheListedEvaluations : Prop :=
  ∀ (E E' : RoundKeys → Block → Block) (s : State) (input : List Byte),
    (∀ b ∈ processEvaluations E input s,
      E (keySlot s.KS s.KSREF).rk b = E' (keySlot s.KS s.KSREF).rk b) →
    process E input s = process E' input s

/-- R111: streaming equivalence. Any pieces, zero lengths allowed, of which in CFB128 every one but the last has a
length that is a multiple of 16: one `PROCESS` after another returns outputs whose concatenation is the
output of a single `PROCESS` of the joined input, and leaves the same registers. In CFB128 a piece of another
length exhausts the context, and whatever piece follows is refused. -/
def Obligations.StreamingInPiecesEqualsOneCall : Prop :=
  (∀ (s : State) (pieces : List (List Byte)), s.accepting →
    (s.CTL.WC = .w128 → ∀ p ∈ pieces.dropLast, p.length % 16 = 0) →
    ∃ t u, execAll (pieces.map Instr.process) s = .next t
      ∧ exec (.process pieces.flatten) s = .next u
      ∧ t.sameEngine u
      ∧ t.outputsAfter s.responses.length = u.lastOutput)
    ∧ ∀ (s : State) (piece following : List Byte), s.accepting → s.CTL.WC = .w128 → piece.length % 16 ≠ 0 →
      ∃ t, exec (.process piece) s = .next t
        ∧ exec (.process following) t = .next (t.answered 0x35000000#32 [])

/-- R112: round trip. With the same key schedule, width and IV, what an encrypting context returns for `P`, a fresh
decrypting context turns back into `P`, and the feedback registers end equal. For every length and width. -/
def Obligations.DecryptUndoesEncrypt : Prop :=
  ∀ (s s' : State) (fw : BitVec 8) (ksref : KsRef) (iv P : List Byte),
    s.KS = s'.KS → s.initSucceeds fw ksref iv →
    ∃ a b t u,
      exec (.init .encrypt fw ksref iv) s = .next a
        ∧ exec (.init .decrypt fw ksref iv) s' = .next b
        ∧ exec (.process P) a = .next t
        ∧ exec (.process t.lastOutput) b = .next u
        ∧ u.lastOutput = P ∧ u.FB = t.FB

/-- R140 (d): on decrypt in CFB8 a corrupted ciphertext byte spoils its own plaintext byte and the next 16, and no
more: if two inputs of one length differ at index `i` only, their outputs agree everywhere but from `i` to
`i + 16`. -/
def Obligations.Cfb8CiphertextErrorIsConfined : Prop :=
  ∀ (s : State) (input input' : List Byte) (i : Nat),
    s.accepting → s.CTL.WC = .w8 → s.CTL.DIR = .decrypt → input.length = input'.length →
    (∀ k, k ≠ i → input.getD k 0#8 = input'.getD k 0#8) →
    ∃ t t', exec (.process input) s = .next t ∧ exec (.process input') s = .next t'
      ∧ ∀ k, k < i ∨ i + 16 < k → t.lastOutput.getD k 0#8 = t'.lastOutput.getD k 0#8

/-- R157 (b) and R153: shifting in the eight bits of a byte, bit 7 first, is shifting in the byte; and one bit shift
on bytes: bit 7 of each byte moves into bit 0 of the byte to its left. -/
def Obligations.BitShiftsMoveBytes : Prop :=
  (∀ (b : Block) (c : Byte), (bitsOfByte c).foldl shiftInBit b = shiftInByte b c)
    ∧ ∀ (b : Block) (c : Bool),
      (∀ k < 15, byteAt (shiftInBit b c) k =
        (byteAt b k <<< 1) ||| (BitVec.ofBool ((byteAt b (k + 1)).getLsbD 7)).setWidth 8)
      ∧ byteAt (shiftInBit b c) 15 = (byteAt b 15 <<< 1) ||| (BitVec.ofBool c).setWidth 8

/-! ### Lifecycle and whole-machine rules -/

/-- R197 and R108: the lifecycle state after every command. Only a successful `INIT` and a successful non-empty
`PROCESS` change it. -/
def Obligations.LifecycleTransitions : Prop :=
  ∀ (s : State) (c : Command) (rest : List Event),
    s.events = .command c :: rest → framed c = true →
    ∃ t, step s = .next t
      ∧ t.CTL.LS =
        match decode c with
        | .error _ => s.CTL.LS
        | .ok (.select _ _) => s.CTL.LS
        | .ok (.init _ fw ksref iv) => if s.initSucceeds fw ksref iv then .initialized else s.CTL.LS
        | .ok (.process input) =>
          if ¬s.accepting ∨ input.length = 0 then s.CTL.LS
          else if s.CTL.WC = .w128 ∧ input.length % 16 ≠ 0 then .exhausted
          else .inUse

/-- R125 and R198: after a CFB128 `PROCESS` whose length is not a multiple of 16, every further `PROCESS`, however
many, answers `StreamExhausted` and changes nothing; and only a successful `INIT` leaves `Exhausted`. -/
def Obligations.ExhaustedIsTerminal : Prop :=
  (∀ (s : State) (input : List Byte), s.accepting → s.CTL.WC = .w128 → input.length % 16 ≠ 0 →
    ∃ t, exec (.process input) s = .next t
      ∧ ∀ further : List (List Byte),
          execAll (further.map Instr.process) t = .next
            { t with responses := t.responses ++ further.map fun _ => ⟨0x35000000#32, []⟩ })
    ∧ ∀ (s t : State) (i : Instr), s.CTL.LS = .exhausted → exec i s = .next t → t.CTL.LS ≠ .exhausted →
        t.CTL.LS = .initialized ∧ ∃ dir fw ksref iv, i = .init dir fw ksref iv

/-- R37: two engines with equal registers behave equally on every command sequence, given equal constants: they
give the same responses and end with equal registers. -/
def Obligations.EqualEnginesBehaveEqually : Prop :=
  ∀ (s s' : State) (is : List Instr), s.sameEngine s' →
    ∃ t t' rs, execAll is s = .next t ∧ execAll is s' = .next t'
      ∧ t.sameEngine t' ∧ t.responses = s.responses ++ rs ∧ t'.responses = s'.responses ++ rs

/-- Headline (R22): while a context exists `FB` is the last 128 bits of the IV followed by all ciphertext
processed in whole units. Every command keeps it, from every state. -/
def Obligations.FeedbackRegisterHoldsTheCiphertextStream : Prop :=
  ∀ (stream : List Byte) (i : Instr) (s t : State),
    s.holdsStream stream → exec i s = .next t → t.holdsStream (streamAfter stream i s t)

/-- The context invariant holds at reset (R39, R240). -/
def Obligations.ResetMeetsTheContextInvariant : Prop := State.reset.contextInv

/-- Headline: every step keeps the context invariant (R24, R29, R30): while a context exists, the cursor is 0 at
every command boundary, the key size and the variant are those of the borrowed schedule and the dispatch
table, and only CFB128 is exhausted. -/
def Obligations.EveryStepKeepsTheContextInvariant : Prop :=
  ∀ s t : State, s.contextInv → step s = .next t → t.contextInv
end

