-- ==== Sys2Proof/Laws/Operands.lean ====
section
/-! SUPPORT. Spec lemmas of the operand helpers: key sizes, widths, and the byte and bit views of a block. -/

namespace Sys2Proof.Machine

/-! ### Key sizes and widths -/

/-- Everything `keySizeOfBits` can answer. -/
theorem keySizeOfBits_eq_some {n : Nat} {k : KeySize} :
    keySizeOfBits n = some k ↔ n = keySizeBits k := by
  unfold keySizeOfBits
  cases k <;> simp only [keySizeBits] <;> split_ifs <;> simp <;> omega

theorem keySizeOfBits_eq_none {n : Nat} :
    keySizeOfBits n = none ↔ ¬(n = 128 ∨ n = 192 ∨ n = 256) := by
  unfold keySizeOfBits
  split_ifs <;> simp <;> omega

@[simp] theorem keySizeOfBits_keySizeBits (k : KeySize) : keySizeOfBits (keySizeBits k) = some k :=
  keySizeOfBits_eq_some.2 rfl

/-- Everything `widthOfBits` can answer. -/
theorem widthOfBits_eq_some {n : Nat} {w : Width} : widthOfBits n = some w ↔ n = widthBits w := by
  unfold widthOfBits
  cases w <;> simp only [widthBits] <;> split_ifs <;> simp <;> omega

theorem widthOfBits_eq_none {n : Nat} : widthOfBits n = none ↔ ¬(n = 128 ∨ n = 8 ∨ n = 1) := by
  unfold widthOfBits
  split_ifs <;> simp <;> omega

@[simp] theorem widthOfBits_widthBits (w : Width) : widthOfBits (widthBits w) = some w :=
  widthOfBits_eq_some.2 rfl

/-! ### Bytes of a block -/

/-- The bits of a byte of a block (R12). -/
theorem getLsbD_byteAt (b : Block) (i k : Nat) :
    (byteAt b i).getLsbD k = (decide (k < 8) && b.getLsbD (8 * (15 - i) + k)) := by
  simp [byteAt, BitVec.getLsbD_extractLsb']

/-- A block is determined by its bytes. -/
theorem block_ext {a b : Block} (h : ∀ i < 16, byteAt a i = byteAt b i) : a = b := by
  apply BitVec.eq_of_getLsbD_eq
  intro j hj
  have hb := congrArg (fun x => x.getLsbD (j % 8)) (h (15 - j / 8) (by omega))
  have hlt : j % 8 < 8 := Nat.mod_lt _ (by omega)
  have hidx : 8 * (15 - (15 - j / 8)) + j % 8 = j := by omega
  simpa only [getLsbD_byteAt, hlt, hidx, decide_true, Bool.true_and] using hb

@[simp] theorem byteAt_xor (a b : Block) (i : Nat) : byteAt (a ^^^ b) i = byteAt a i ^^^ byteAt b i := by
  simp [byteAt, BitVec.extractLsb'_xor]

@[simp] theorem length_blockBytes (b : Block) : (blockBytes b).length = 16 := by
  simp [blockBytes]

theorem getElem_blockBytes (b : Block) (i : Nat) (h : i < (blockBytes b).length) :
    (blockBytes b)[i] = byteAt b i := by
  simp [blockBytes]

/-- Shifting a byte in moves every byte one place to the left (R137). -/
theorem byteAt_shiftInByte {i : Nat} (b : Block) (c : Byte) (h : i < 15) :
    byteAt (shiftInByte b c) i = byteAt b (i + 1) := by
  apply BitVec.eq_of_getLsbD_eq
  intro k hk
  have h2 : ¬ 8 * (15 - i) + k < 8 := by omega
  have h3 : 8 * (15 - i) + k - 8 = 8 * (15 - (i + 1)) + k := by omega
  have h4 : 8 * (15 - i) + k < 128 := by omega
  have h5 : c.getLsbD (8 * (15 - i) + k) = false := BitVec.getLsbD_of_ge _ _ (by omega)
  rw [getLsbD_byteAt, getLsbD_byteAt]
  simp [shiftInByte, hk, h2, h3, h4, h5, -BitVec.getLsbD_eq_getElem]

/-- The byte shifted in is the rightmost one (R137). -/
theorem byteAt_shiftInByte_last (b : Block) (c : Byte) : byteAt (shiftInByte b c) 15 = c := by
  apply BitVec.eq_of_getLsbD_eq
  intro k hk
  rw [getLsbD_byteAt]
  simp [shiftInByte, hk, -BitVec.getLsbD_eq_getElem]
  omega

/-- The byte view after a shift: drop the first byte, append the new one (R137). -/
theorem blockBytes_shiftInByte (b : Block) (c : Byte) :
    blockBytes (shiftInByte b c) = (blockBytes b).drop 1 ++ [c] := by
  apply List.ext_getElem
  · simp
  · intro i h1 h2
    have hi : i < 16 := by simpa using h1
    rcases Nat.lt_or_ge i 15 with h | h
    · rw [List.getElem_append_left (by simpa using h), getElem_blockBytes, List.getElem_drop,
        getElem_blockBytes, byteAt_shiftInByte _ _ h, Nat.add_comm]
    · obtain rfl : i = 15 := by omega
      simp [getElem_blockBytes, byteAt_shiftInByte_last]

/-- The byte view after shifting a sequence in: the last 16 bytes of what was there and the sequence. -/
theorem blockBytes_foldl_shiftInByte (bs : List Byte) (b : Block) :
    blockBytes (bs.foldl shiftInByte b) = (blockBytes b ++ bs).drop bs.length := by
  induction bs generalizing b with
  | nil => simp
  | cons c cs ih =>
    rw [List.foldl_cons, ih, blockBytes_shiftInByte, List.length_cons, List.append_assoc,
      List.singleton_append, ← List.drop_append_of_le_length (by simp), List.drop_drop, Nat.add_comm]

/-- Sixteen bytes make the block that has them as its bytes (R12). -/
theorem blockBytes_blockOfBytes {bs : List Byte} (h : bs.length = 16) : blockBytes (blockOfBytes bs) = bs := by
  rw [blockOfBytes, blockBytes_foldl_shiftInByte, h]
  exact List.drop_left' (by simp)

theorem byteAt_blockOfBytes {bs : List Byte} (h : bs.length = 16) {i : Nat} (hi : i < 16) :
    byteAt (blockOfBytes bs) i = bs.getD i 0#8 := by
  have h1 : i < (blockBytes (blockOfBytes bs)).length := by simpa using hi
  rw [← getElem_blockBytes _ _ h1]
  simp [blockBytes_blockOfBytes h, h, hi]

/-- A block is the block of its bytes (R12). -/
theorem blockOfBytes_blockBytes (b : Block) : blockOfBytes (blockBytes b) = b := by
  apply block_ext
  intro i hi
  rw [byteAt_blockOfBytes (length_blockBytes b) hi, List.getD_eq_getElem _ _ (by simpa using hi),
    getElem_blockBytes]

/-! ### Bits -/

@[simp] theorem length_bitsOfByte (x : Byte) : (bitsOfByte x).length = 8 := rfl

/-- Shifting a bit in (R153): bit `k` is the old bit `k - 1`, bit 0 the new bit. -/
theorem getLsbD_shiftInBit (b : Block) (c : Bool) (k : Nat) (h : k < 128) :
    (shiftInBit b c).getLsbD k = if k = 0 then c else b.getLsbD (k - 1) := by
  cases k with
  | zero => simp [shiftInBit]
  | succ k => simp [shiftInBit, h, -BitVec.getLsbD_eq_getElem]

/-- A byte is the byte of its bits (R54). -/
theorem byteOfBits_bitsOfByte (x : Byte) : byteOfBits (bitsOfByte x) = x := by
  revert x; decide +kernel

/-- Eight bits are the bits of the byte they make (R54). -/
theorem bitsOfByte_byteOfBits {bs : List Bool} (h : bs.length = 8) : bitsOfByte (byteOfBits bs) = bs := by
  match bs, h with
  | [a, b, c, d, e, f, g, i], _ => revert a b c d e f g i; decide +kernel

end Sys2Proof.Machine
end

