-- ==== Sys2Proof/Laws/Ops.lean ====
section
/-! SUPPORT. Spec lemmas of the shared operations: the selector and the passage of a unit step over a sequence. -/

namespace Sys2Proof.Machine

/-! ### The selector -/

/-- Everything `select` can answer: the handle of a supported pair (R170 to R172). -/
theorem select_eq_some {t : DispatchTable} {kb wb : Nat} {h : Handle} :
    select t kb wb = some h ↔
      kb = keySizeBits h.kc ∧ wb = widthBits h.wc ∧ h.var = dispatchRow t h.kc h.wc := by
  obtain ⟨k, w, v⟩ := h
  unfold select
  cases hk : keySizeOfBits kb with
  | none =>
    have hne : kb ≠ keySizeBits k := fun e => by
      rw [← keySizeOfBits_eq_some] at e; simp [hk] at e
    simp [hne]
  | some k' =>
    rw [keySizeOfBits_eq_some] at hk
    subst hk
    have hki : keySizeBits k' = keySizeBits k ↔ k' = k := by cases k <;> cases k' <;> decide
    cases hw : widthOfBits wb with
    | none =>
      have hne : wb ≠ widthBits w := fun e => by
        rw [← widthOfBits_eq_some] at e; simp [hw] at e
      simp [hne]
    | some w' =>
      rw [widthOfBits_eq_some] at hw
      subst hw
      have hwi : widthBits w' = widthBits w ↔ w' = w := by cases w <;> cases w' <;> decide
      simp only [Option.some.injEq, Handle.mk.injEq, hki, hwi]
      constructor
      · rintro ⟨rfl, rfl, rfl⟩; exact ⟨rfl, rfl, rfl⟩
      · rintro ⟨rfl, rfl, rfl⟩; exact ⟨rfl, rfl, rfl⟩

/-- `select` fails exactly on an unsupported pair (R174). -/
theorem select_eq_none {t : DispatchTable} {kb wb : Nat} :
    select t kb wb = none ↔ keySizeOfBits kb = none ∨ widthOfBits wb = none := by
  unfold select
  cases keySizeOfBits kb <;> cases widthOfBits wb <;> simp

/-! ### Units in sequence -/

section
variable {σ α β : Type} (unit : σ → α → σ × β)

@[simp] theorem passUnits_nil (r : σ) : passUnits unit r [] = (r, []) := rfl

@[simp] theorem passUnits_cons (r : σ) (x : α) (xs : List α) :
    passUnits unit r (x :: xs) =
      ((passUnits unit (unit r x).1 xs).1, (unit r x).2 :: (passUnits unit (unit r x).1 xs).2) := rfl

/-- One result per unit. -/
@[simp] theorem length_passUnits (r : σ) (xs : List α) : (passUnits unit r xs).2.length = xs.length := by
  induction xs generalizing r with
  | nil => rfl
  | cons x xs ih => simp [ih]

/-- A pass over two sequences is a pass over the first and then over the second. -/
theorem passUnits_append (r : σ) (xs ys : List α) :
    passUnits unit r (xs ++ ys) =
      ((passUnits unit (passUnits unit r xs).1 ys).1,
        (passUnits unit r xs).2 ++ (passUnits unit (passUnits unit r xs).1 ys).2) := by
  induction xs generalizing r with
  | nil => simp
  | cons x xs ih => simp [ih]

@[simp] theorem length_unitStarts (r : σ) (xs : List α) : (unitStarts unit r xs).length = xs.length := by
  induction xs generalizing r with
  | nil => rfl
  | cons x xs ih => simp [unitStarts, ih]

/-- The state after the first `k` units. -/
def stateAfter (r : σ) (xs : List α) (k : Nat) : σ := (passUnits unit r (xs.take k)).1

@[simp] theorem stateAfter_zero (r : σ) (xs : List α) : stateAfter unit r xs 0 = r := by simp [stateAfter]

theorem stateAfter_length (r : σ) (xs : List α) :
    stateAfter unit r xs xs.length = (passUnits unit r xs).1 := by simp [stateAfter]

/-- Step `k` takes the state after `k` units to the state after `k + 1`. -/
theorem stateAfter_succ (r : σ) (xs : List α) (k : Nat) (h : k < xs.length) :
    stateAfter unit r xs (k + 1) = (unit (stateAfter unit r xs k) xs[k]).1 := by
  rw [stateAfter, ← List.take_concat_get' xs k h, passUnits_append]
  rfl

/-- Result `k` is that of the unit step on the state after `k` units. -/
theorem getElem_passUnits (r : σ) (xs : List α) (k : Nat) (h : k < xs.length) :
    (passUnits unit r xs).2[k]'(by simpa using h) = (unit (stateAfter unit r xs k) xs[k]).2 := by
  induction xs generalizing r k with
  | nil => simp at h
  | cons x xs ih =>
    cases k with
    | zero => simp
    | succ k =>
      have hk : k < xs.length := by simpa using h
      simpa [stateAfter] using ih (unit r x).1 k hk

/-- If a second unit step undoes the first, keeping the states equal, its pass undoes the first's pass. -/
theorem passUnits_inverse {unit' : σ → β → σ × α}
    (hinv : ∀ r x, unit' r (unit r x).2 = ((unit r x).1, x)) (r : σ) (xs : List α) :
    passUnits unit' r (passUnits unit r xs).2 = ((passUnits unit r xs).1, xs) := by
  induction xs generalizing r with
  | nil => rfl
  | cons x xs ih => simp [hinv, ih]

/-- A pass depends on the unit step only at the states where it is taken. -/
theorem passUnits_congr {unit' : σ → α → σ × β} (r : σ) (xs : List α)
    (h : ∀ p ∈ List.zip (unitStarts unit r xs) xs, unit p.1 p.2 = unit' p.1 p.2) :
    passUnits unit r xs = passUnits unit' r xs := by
  induction xs generalizing r with
  | nil => rfl
  | cons x xs ih =>
    have h0 : unit r x = unit' r x := h (r, x) (by simp [unitStarts])
    have h1 := ih (unit r x).1 (fun p hp => h p (by simp [unitStarts, hp]))
    simp [h0] at h1
    simp [h0, h1]

end

end Sys2Proof.Machine
end

