-- ==== Sys2Proof/Laws/Cfb.lean ====
section
/-! SUPPORT. Spec lemmas of the three CFB algorithms: what a unit step does, what a pass leaves, and that
decryption undoes encryption unit by unit. -/

namespace Sys2Proof.Machine

@[simp] theorem fedBack_encrypt {α : Type} (o x : α) : fedBack .encrypt o x = o := rfl

@[simp] theorem fedBack_decrypt {α : Type} (o x : α) : fedBack .decrypt o x = x := rfl

/-! ### Unit steps undone -/

/-- A decrypting chunk step undoes an encrypting one and leaves the same register (R112). -/
theorem chunkUnit_inverse (enc : Block → Block) (fb x : Block) :
    chunkUnit enc .decrypt fb (chunkUnit enc .encrypt fb x).2 = ((chunkUnit enc .encrypt fb x).1, x) := by
  simp [chunkUnit]

/-- The same for a byte step. -/
theorem byteUnit_inverse (enc : Block → Block) (fb : Block) (x : Byte) :
    byteUnit enc .decrypt fb (byteUnit enc .encrypt fb x).2 = ((byteUnit enc .encrypt fb x).1, x) := by
  simp [byteUnit]

/-- The same for a bit step. -/
theorem bitUnit_inverse (enc : Block → Block) (r : Block × BitVec 3) (x : Bool) :
    bitUnit enc .decrypt r (bitUnit enc .encrypt r x).2 = ((bitUnit enc .encrypt r x).1, x) := by
  simp [bitUnit]

/-- The output bits of a byte of CFB1, in the order of the steps. -/
theorem bitsOfByte_bitsUnit (enc : Block → Block) (dir : Direction) (r : Block × BitVec 3) (x : Byte) :
    bitsOfByte (bitsUnit enc dir r x).2 = (passUnits (bitUnit enc dir) r (bitsOfByte x)).2 :=
  bitsOfByte_byteOfBits (by simp)

theorem bitsUnit_fst (enc : Block → Block) (dir : Direction) (r : Block × BitVec 3) (x : Byte) :
    (bitsUnit enc dir r x).1 = (passUnits (bitUnit enc dir) r (bitsOfByte x)).1 := rfl

/-- The same for the eight bit steps of a byte. -/
theorem bitsUnit_inverse (enc : Block → Block) (r : Block × BitVec 3) (x : Byte) :
    bitsUnit enc .decrypt r (bitsUnit enc .encrypt r x).2 = ((bitsUnit enc .encrypt r x).1, x) := by
  have h := passUnits_inverse (bitUnit enc .encrypt) (bitUnit_inverse enc) r (bitsOfByte x)
  rw [← bitsOfByte_bitsUnit] at h
  unfold bitsUnit at h ⊢
  simp only at h ⊢
  rw [h]
  simp [byteOfBits_bitsOfByte]

/-! ### CFB1 as one pass over bits -/

theorem length_flatMap_bitsOfByte (xs : List Byte) : (xs.flatMap bitsOfByte).length = 8 * xs.length := by
  induction xs with
  | nil => rfl
  | cons x xs ih =>
    simp only [List.flatMap_cons, List.length_append, ih, length_bitsOfByte, List.length_cons]; omega

/-- Bit `j` of a byte stream (R54, R151): of byte `j / 8`, bit 7 first. -/
theorem getElem_flatMap_bitsOfByte (xs : List Byte) (j : Nat) (h : j < (xs.flatMap bitsOfByte).length) :
    (xs.flatMap bitsOfByte)[j] = (xs.getD (j / 8) 0#8).getLsbD (7 - j % 8) := by
  induction xs generalizing j with
  | nil => simp at h
  | cons x xs ih =>
    simp only [List.flatMap_cons] at h ⊢
    rcases Nat.lt_or_ge j 8 with hj | hj
    · rw [List.getElem_append_left (by simpa using hj)]
      have hj0 : j / 8 = 0 := by omega
      simp only [hj0, List.getD_cons_zero]
      interval_cases j <;> simp [bitsOfByte]
    · rw [List.getElem_append_right (by simpa using hj)]
      simp only [length_bitsOfByte]
      rw [ih (j - 8) (by simp only [List.length_append, length_bitsOfByte] at h; omega)]
      have e1 : j / 8 = (j - 8) / 8 + 1 := by omega
      have e2 : j % 8 = (j - 8) % 8 := by omega
      rw [e1, e2, List.getD_cons_succ]

/-- A CFB1 pass over bytes is the pass over all their bits. -/
theorem passUnits_bitsUnit (enc : Block → Block) (dir : Direction) (r : Block × BitVec 3) (xs : List Byte) :
    (passUnits (bitsUnit enc dir) r xs).1 = (passUnits (bitUnit enc dir) r (xs.flatMap bitsOfByte)).1
      ∧ (passUnits (bitsUnit enc dir) r xs).2.flatMap bitsOfByte =
        (passUnits (bitUnit enc dir) r (xs.flatMap bitsOfByte)).2 := by
  induction xs generalizing r with
  | nil => simp
  | cons x xs ih =>
    simp only [passUnits_cons, List.flatMap_cons, passUnits_append]
    have h := ih (bitsUnit enc dir r x).1
    rw [bitsUnit_fst] at h ⊢
    exact ⟨h.1, by rw [h.2, bitsOfByte_bitsUnit]⟩

/-! ### Lengths -/

@[simp] theorem length_fullChunks (n : Nat) (xs : List Byte) : (fullChunks n xs).length = n := by
  induction n generalizing xs with
  | zero => rfl
  | succ n ih => simp [fullChunks, ih]

theorem length_flatMap_blockBytes (bs : List Block) : (bs.flatMap blockBytes).length = 16 * bs.length := by
  induction bs with
  | nil => rfl
  | cons b bs ih => simp [ih]; omega

theorem length_maskPartial (ks : Block) {xs : List Byte} (h : xs.length ≤ 16) :
    (maskPartial ks xs).length = xs.length := by simp [maskPartial]; omega

theorem cfb128_fb (enc : Block → Block) (dir : Direction) (fb : Block) (cur : BitVec 3) (xs : List Byte) :
    (cfb128 enc dir fb cur xs).fb = (passUnits (chunkUnit enc dir) fb (fullChunks (xs.length / 16) xs)).1 := rfl

theorem cfb128_ls (enc : Block → Block) (dir : Direction) (fb : Block) (cur : BitVec 3) (xs : List Byte) :
    (cfb128 enc dir fb cur xs).ls = if xs.length % 16 = 0 then .inUse else .exhausted := rfl

theorem cfb128_out (enc : Block → Block) (dir : Direction) (fb : Block) (cur : BitVec 3) (xs : List Byte) :
    (cfb128 enc dir fb cur xs).out =
      (passUnits (chunkUnit enc dir) fb (fullChunks (xs.length / 16) xs)).2.flatMap blockBytes
        ++ if xs.length % 16 = 0 then []
          else maskPartial (enc (cfb128 enc dir fb cur xs).fb) (xs.drop (16 * (xs.length / 16))) := rfl

theorem length_cfb128_out (enc : Block → Block) (dir : Direction) (fb : Block) (cur : BitVec 3)
    (xs : List Byte) : (cfb128 enc dir fb cur xs).out.length = xs.length := by
  rw [cfb128_out, List.length_append, length_flatMap_blockBytes, length_passUnits, length_fullChunks]
  split
  · simp; omega
  · rw [length_maskPartial] <;> simp <;> omega

/-- "Output: byte sequence of equal length" (R51). -/
theorem length_cfb_out (w : Width) (enc : Block → Block) (dir : Direction) (fb : Block) (cur : BitVec 3)
    (xs : List Byte) : (cfb w enc dir fb cur xs).out.length = xs.length := by
  cases w with
  | w128 => exact length_cfb128_out enc dir fb cur xs
  | w8 => simp [cfb, cfb8]
  | w1 => simp [cfb, cfb1]

/-! ### CFB128 chunk by chunk -/

/-- Byte `i` of chunk `j` (R120). -/
theorem byteAt_fullChunks {xs : List Byte} {n j i : Nat} (hn : 16 * n ≤ xs.length) (hj : j < n) (hi : i < 16) :
    byteAt ((fullChunks n xs)[j]'(by simpa using hj)) i = xs.getD (16 * j + i) 0#8 := by
  induction n generalizing xs j with
  | zero => omega
  | succ n ih =>
    cases j with
    | zero =>
      simp only [fullChunks, List.getElem_cons_zero]
      rw [byteAt_blockOfBytes (by rw [List.length_take]; omega) hi, List.getD_eq_getElem?_getD,
        List.getElem?_take_of_lt hi]
      simp
    | succ j =>
      simp only [fullChunks, List.getElem_cons_succ]
      rw [ih (by rw [List.length_drop]; omega) (by omega), List.getD_eq_getElem?_getD, List.getElem?_drop,
        List.getD_eq_getElem?_getD]
      congr 2
      omega

/-- Byte `i` of block `j` in the bytes of a sequence of blocks. -/
theorem getD_flatMap_blockBytes (bs : List Block) {j i : Nat} (h : j < bs.length) (hi : i < 16) :
    (bs.flatMap blockBytes).getD (16 * j + i) 0#8 = byteAt bs[j] i := by
  induction bs generalizing j with
  | nil => simp at h
  | cons b bs ih =>
    simp only [List.flatMap_cons, List.getD_eq_getElem?_getD]
    cases j with
    | zero =>
      rw [List.getElem?_append_left (by simpa using hi)]
      simp [getElem_blockBytes, hi]
    | succ j =>
      rw [List.getElem?_append_right (by simp; omega), ← List.getD_eq_getElem?_getD,
        show 16 * (j + 1) + i - (blockBytes b).length = 16 * j + i by simp; omega,
        ih (by simpa using h), List.getElem_cons_succ]

/-- Masking a whole chunk is XOR of blocks (R105). -/
theorem maskPartial_full (ks : Block) {xs : List Byte} (h : xs.length = 16) :
    maskPartial ks xs = blockBytes (blockOfBytes xs ^^^ ks) := by
  apply List.ext_getElem
  · simp [length_maskPartial ks (Nat.le_of_eq h), h]
  · intro i h1 h2
    have hi : i < 16 := by simpa using h2
    simp [maskPartial, getElem_blockBytes, byteAt_blockOfBytes h hi, hi, h]

/-- CFB128 of fewer than 16 bytes (R126 (b)): no full chunk, the register unchanged. -/
theorem cfb128_short (enc : Block → Block) (dir : Direction) (fb : Block) (cur : BitVec 3) {xs : List Byte}
    (h : xs.length < 16) :
    cfb128 enc dir fb cur xs =
      { fb := fb, cur := cur, ls := if xs.length = 0 then .inUse else .exhausted
        out := maskPartial (enc fb) xs } := by
  have h0 : xs.length / 16 = 0 := by omega
  have h1 : xs.length % 16 = xs.length := by omega
  unfold cfb128
  simp only [h0, h1, fullChunks, passUnits_nil]
  cases xs with
  | nil => simp [maskPartial]
  | cons x xs => simp

/-- CFB128 of 16 bytes or more: the first chunk, and then the rest from the register it leaves (R121). -/
theorem cfb128_long (enc : Block → Block) (dir : Direction) (fb : Block) (cur : BitVec 3) {xs : List Byte}
    (h : 16 ≤ xs.length) :
    cfb128 enc dir fb cur xs =
      { cfb128 enc dir (chunkUnit enc dir fb (blockOfBytes (xs.take 16))).1 cur (xs.drop 16) with
        out := blockBytes (chunkUnit enc dir fb (blockOfBytes (xs.take 16))).2
          ++ (cfb128 enc dir (chunkUnit enc dir fb (blockOfBytes (xs.take 16))).1 cur (xs.drop 16)).out } := by
  have h0 : xs.length / 16 = (xs.drop 16).length / 16 + 1 := by rw [List.length_drop]; omega
  have h1 : xs.length % 16 = (xs.drop 16).length % 16 := by rw [List.length_drop]; omega
  unfold cfb128
  simp only [h0, h1, fullChunks, passUnits_cons, List.flatMap_cons, List.append_assoc, List.drop_drop]
  congr 3
  simp [Nat.mul_add, Nat.add_comm]

/-! ### The cursor -/

/-- A pass of bit steps counts its bits on the cursor, modulo 8 (R154). -/
theorem passUnits_bitUnit_cur (enc : Block → Block) (dir : Direction) (r : Block × BitVec 3)
    (bs : List Bool) :
    (passUnits (bitUnit enc dir) r bs).1.2 = r.2 + BitVec.ofNat 3 bs.length := by
  induction bs generalizing r with
  | nil => simp
  | cons b bs ih =>
    rw [passUnits_cons, ih]
    simp only [bitUnit, List.length_cons]
    rw [BitVec.add_assoc, Nat.add_comm, BitVec.ofNat_add]

@[simp] theorem bitsUnit_cur (enc : Block → Block) (dir : Direction) (r : Block × BitVec 3) (x : Byte) :
    (bitsUnit enc dir r x).1.2 = r.2 := by
  rw [bitsUnit_fst, passUnits_bitUnit_cur]; simp

theorem passUnits_bitsUnit_cur (enc : Block → Block) (dir : Direction) (r : Block × BitVec 3)
    (xs : List Byte) : (passUnits (bitsUnit enc dir) r xs).1.2 = r.2 := by
  induction xs generalizing r with
  | nil => rfl
  | cons x xs ih => simp [ih]

/-- The cursor is where it was after whole bytes (R30, R154). -/
@[simp] theorem cfb_cur (w : Width) (enc : Block → Block) (dir : Direction) (fb : Block) (cur : BitVec 3)
    (xs : List Byte) : (cfb w enc dir fb cur xs).cur = cur := by
  cases w with
  | w128 => rfl
  | w8 => rfl
  | w1 => exact passUnits_bitsUnit_cur enc dir (fb, cur) xs

/-- What a pass leaves in `CTL.LS` (R108). -/
theorem cfb_ls (w : Width) (enc : Block → Block) (dir : Direction) (fb : Block) (cur : BitVec 3)
    (xs : List Byte) :
    (cfb w enc dir fb cur xs).ls = if w = .w128 ∧ xs.length % 16 ≠ 0 then .exhausted else .inUse := by
  cases w with
  | w128 => simp only [cfb, cfb128_ls]; split <;> simp_all
  | w8 => rfl
  | w1 => rfl

/-! ### What is shifted into the register -/

/-- A CFB8 pass shifts the ciphertext bytes into the register (R137). -/
theorem passUnits_byteUnit_fb (enc : Block → Block) (dir : Direction) (fb : Block) (xs : List Byte) :
    (passUnits (byteUnit enc dir) fb xs).1 =
      (fedBack dir (passUnits (byteUnit enc dir) fb xs).2 xs).foldl shiftInByte fb := by
  induction xs generalizing fb with
  | nil => cases dir <;> rfl
  | cons x xs ih => rw [passUnits_cons, ih]; cases dir <;> rfl

/-- A pass of CFB1 bit steps shifts the ciphertext bits into the register (R153). -/
theorem passUnits_bitUnit_fb (enc : Block → Block) (dir : Direction) (r : Block × BitVec 3) (bs : List Bool) :
    (passUnits (bitUnit enc dir) r bs).1.1 =
      (fedBack dir (passUnits (bitUnit enc dir) r bs).2 bs).foldl shiftInBit r.1 := by
  induction bs generalizing r with
  | nil => cases dir <;> rfl
  | cons b bs ih => rw [passUnits_cons, ih]; cases dir <;> rfl

/-! ### A pass over two pieces, and a pass back -/

/-- A pass over two pieces is one pass after the other, when the first ends on a chunk boundary in CFB128. -/
theorem cfb_append (w : Width) (enc : Block → Block) (dir : Direction) (fb : Block) (cur : BitVec 3)
    (xs ys : List Byte) (hw : w = .w128 → xs.length % 16 = 0) :
    (cfb w enc dir fb cur (xs ++ ys)).fb = (cfb w enc dir (cfb w enc dir fb cur xs).fb cur ys).fb
      ∧ (cfb w enc dir fb cur (xs ++ ys)).out =
        (cfb w enc dir fb cur xs).out ++ (cfb w enc dir (cfb w enc dir fb cur xs).fb cur ys).out := by
  cases w with
  | w8 => simp [cfb, cfb8, passUnits_append]
  | w1 =>
    have hc : (passUnits (bitsUnit enc dir) (fb, cur) xs).1
        = ((passUnits (bitsUnit enc dir) (fb, cur) xs).1.1, cur) :=
      Prod.ext rfl (passUnits_bitsUnit_cur enc dir (fb, cur) xs)
    simp only [cfb, cfb1, passUnits_append]
    rw [hc]
    exact ⟨rfl, rfl⟩
  | w128 =>
    simp only [cfb]
    have hx := hw rfl
    clear hw
    generalize hn : xs.length = n at hx
    induction n using Nat.strong_induction_on generalizing xs fb with
    | _ n ih =>
      rcases Nat.lt_or_ge xs.length 16 with hs | hs
      · obtain rfl : xs = [] := List.eq_nil_of_length_eq_zero (by omega)
        exact ⟨rfl, rfl⟩
      · have hl : (xs.drop 16).length = n - 16 := by rw [List.length_drop, hn]
        rw [cfb128_long _ _ _ _ hs, cfb128_long _ _ _ _ (xs := xs ++ ys) (by rw [List.length_append]; omega),
          List.take_append_of_le_length hs, List.drop_append_of_le_length hs]
        obtain ⟨a, b⟩ := ih (n - 16) (by omega) (chunkUnit enc dir fb (blockOfBytes (xs.take 16))).1
          (xs.drop 16) hl (by omega)
        simp only [a, b, List.append_assoc, and_self]

/-- Masking twice with the same keystream gives the input back (R105). -/
theorem maskPartial_maskPartial (ks : Block) {xs : List Byte} (h : xs.length ≤ 16) :
    maskPartial ks (maskPartial ks xs) = xs := by
  have hl := length_maskPartial ks h
  apply List.ext_getElem
  · rw [length_maskPartial ks (by omega), hl]
  · intro i h1 h2
    simp [maskPartial]

/-- A decrypting pass undoes an encrypting one and leaves the same register (R112). -/
theorem cfb_inverse (w : Width) (enc : Block → Block) (fb : Block) (cur : BitVec 3) (xs : List Byte) :
    (cfb w enc .decrypt fb cur (cfb w enc .encrypt fb cur xs).out).out = xs
      ∧ (cfb w enc .decrypt fb cur (cfb w enc .encrypt fb cur xs).out).fb
        = (cfb w enc .encrypt fb cur xs).fb := by
  cases w with
  | w8 => simp [cfb, cfb8, passUnits_inverse _ (byteUnit_inverse enc)]
  | w1 => simp [cfb, cfb1, passUnits_inverse _ (bitsUnit_inverse enc)]
  | w128 =>
    simp only [cfb]
    generalize hn : xs.length = n
    induction n using Nat.strong_induction_on generalizing xs fb with
    | _ n ih =>
      rcases Nat.lt_or_ge xs.length 16 with hs | hs
      · rw [cfb128_short _ _ _ _ hs,
          cfb128_short _ _ _ _ (by simp only; rw [length_maskPartial] <;> omega)]
        exact ⟨maskPartial_maskPartial _ (by omega), rfl⟩
      · have hl := length_cfb128_out enc .encrypt fb cur xs
        have hd : (xs.drop 16).length = n - 16 := by rw [List.length_drop, hn]
        rw [cfb128_long _ _ _ _ (xs := (cfb128 enc .encrypt fb cur xs).out) (by omega), cfb128_long _ _ _ _ hs]
        simp only [List.take_left' (length_blockBytes _), List.drop_left' (length_blockBytes _),
          blockOfBytes_blockBytes, chunkUnit_inverse]
        obtain ⟨a, b⟩ := ih (n - 16) (by omega) (chunkUnit enc .encrypt fb (blockOfBytes (xs.take 16))).1
          (xs.drop 16) hd
        rw [a, b, blockBytes_blockOfBytes (by rw [List.length_take]; omega)]
        simp

end Sys2Proof.Machine
end

