-- ==== Sys2Proof/Laws/State.lean ====
section
/-! SUPPORT. One lemma per field for each state update of the model, so that no later proof unfolds a record
update. -/

namespace Sys2Proof.Machine

/-! ### `respond` -/

@[simp] theorem respond_FB (opc : BitVec 4) (st : Status) (info : BitVec 24) (payload : List Byte) (s : State) :
    (respond opc st info payload s).FB = s.FB := rfl

@[simp] theorem respond_CTL (opc : BitVec 4) (st : Status) (info : BitVec 24) (payload : List Byte) (s : State) :
    (respond opc st info payload s).CTL = s.CTL := rfl

@[simp] theorem respond_KSREF (opc : BitVec 4) (st : Status) (info : BitVec 24) (payload : List Byte) (s : State) :
    (respond opc st info payload s).KSREF = s.KSREF := rfl

@[simp] theorem respond_KS (opc : BitVec 4) (st : Status) (info : BitVec 24) (payload : List Byte) (s : State) :
    (respond opc st info payload s).KS = s.KS := rfl

@[simp] theorem respond_HWREG (opc : BitVec 4) (st : Status) (info : BitVec 24) (payload : List Byte) (s : State) :
    (respond opc st info payload s).HWREG = s.HWREG := rfl

@[simp] theorem respond_events (opc : BitVec 4) (st : Status) (info : BitVec 24) (payload : List Byte) (s : State) :
    (respond opc st info payload s).events = s.events := rfl

@[simp] theorem respond_responses (opc : BitVec 4) (st : Status) (info : BitVec 24) (payload : List Byte) (s : State) :
    (respond opc st info payload s).responses = s.responses ++ [⟨responseWord opc st info, payload⟩] := rfl

@[simp] theorem respond_resets (opc : BitVec 4) (st : Status) (info : BitVec 24) (payload : List Byte) (s : State) :
    (respond opc st info payload s).resets = s.resets := rfl

/-! ### `raise` -/

@[simp] theorem raise_FB (opc : BitVec 4) (error : Status) (s : State) :
    (raise opc error s).FB = s.FB := rfl

@[simp] theorem raise_CTL (opc : BitVec 4) (error : Status) (s : State) :
    (raise opc error s).CTL = s.CTL := rfl

@[simp] theorem raise_KSREF (opc : BitVec 4) (error : Status) (s : State) :
    (raise opc error s).KSREF = s.KSREF := rfl

@[simp] theorem raise_KS (opc : BitVec 4) (error : Status) (s : State) :
    (raise opc error s).KS = s.KS := rfl

@[simp] theorem raise_HWREG (opc : BitVec 4) (error : Status) (s : State) :
    (raise opc error s).HWREG = s.HWREG := rfl

@[simp] theorem raise_events (opc : BitVec 4) (error : Status) (s : State) :
    (raise opc error s).events = s.events := rfl

@[simp] theorem raise_responses (opc : BitVec 4) (error : Status) (s : State) :
    (raise opc error s).responses = s.responses ++ [⟨responseWord opc error 0#24, []⟩] := rfl

@[simp] theorem raise_resets (opc : BitVec 4) (error : Status) (s : State) :
    (raise opc error s).resets = s.resets := rfl

/-! ### `beginContext` -/

@[simp] theorem beginContext_FB (h : Handle) (dir : Direction) (ksref : KsRef) (iv : List Byte) (s : State) :
    (beginContext h dir ksref iv s).FB = blockOfBytes iv := rfl

@[simp] theorem beginContext_CTL (h : Handle) (dir : Direction) (ksref : KsRef) (iv : List Byte) (s : State) :
    (beginContext h dir ksref iv s).CTL = ⟨.initialized, dir, h.wc, h.kc, h.var, 0#3⟩ := rfl

@[simp] theorem beginContext_KSREF (h : Handle) (dir : Direction) (ksref : KsRef) (iv : List Byte) (s : State) :
    (beginContext h dir ksref iv s).KSREF = ksref := rfl

@[simp] theorem beginContext_KS (h : Handle) (dir : Direction) (ksref : KsRef) (iv : List Byte) (s : State) :
    (beginContext h dir ksref iv s).KS = s.KS := rfl

@[simp] theorem beginContext_HWREG (h : Handle) (dir : Direction) (ksref : KsRef) (iv : List Byte) (s : State) :
    (beginContext h dir ksref iv s).HWREG = s.HWREG := rfl

@[simp] theorem beginContext_events (h : Handle) (dir : Direction) (ksref : KsRef) (iv : List Byte) (s : State) :
    (beginContext h dir ksref iv s).events = s.events := rfl

@[simp] theorem beginContext_responses (h : Handle) (dir : Direction) (ksref : KsRef) (iv : List Byte) (s : State) :
    (beginContext h dir ksref iv s).responses = s.responses := rfl

@[simp] theorem beginContext_resets (h : Handle) (dir : Direction) (ksref : KsRef) (iv : List Byte) (s : State) :
    (beginContext h dir ksref iv s).resets = s.resets := rfl

/-! ### `storePass` -/

@[simp] theorem storePass_FB (p : Pass) (s : State) :
    (storePass p s).FB = p.fb := rfl

@[simp] theorem storePass_CTL (p : Pass) (s : State) :
    (storePass p s).CTL = { s.CTL with LS := p.ls, CUR := p.cur } := rfl

@[simp] theorem storePass_KSREF (p : Pass) (s : State) :
    (storePass p s).KSREF = s.KSREF := rfl

@[simp] theorem storePass_KS (p : Pass) (s : State) :
    (storePass p s).KS = s.KS := rfl

@[simp] theorem storePass_HWREG (p : Pass) (s : State) :
    (storePass p s).HWREG = s.HWREG := rfl

@[simp] theorem storePass_events (p : Pass) (s : State) :
    (storePass p s).events = s.events := rfl

@[simp] theorem storePass_responses (p : Pass) (s : State) :
    (storePass p s).responses = s.responses := rfl

@[simp] theorem storePass_resets (p : Pass) (s : State) :
    (storePass p s).resets = s.resets := rfl

/-! ### `resetRegisters` -/

@[simp] theorem resetRegisters_FB (s : State) :
    (resetRegisters s).FB = Config.resetFB (s.resets + 1) := rfl

@[simp] theorem resetRegisters_CTL (s : State) :
    (resetRegisters s).CTL = ⟨.uninit, Config.resetDIR (s.resets + 1), Config.resetWC (s.resets + 1),
      Config.resetKC (s.resets + 1), Config.resetVAR (s.resets + 1), Config.resetCUR (s.resets + 1)⟩ := rfl

@[simp] theorem resetRegisters_KSREF (s : State) :
    (resetRegisters s).KSREF = Config.resetKSREF (s.resets + 1) := rfl

@[simp] theorem resetRegisters_KS (s : State) :
    (resetRegisters s).KS = s.KS := rfl

@[simp] theorem resetRegisters_HWREG (s : State) :
    (resetRegisters s).HWREG = s.HWREG := rfl

@[simp] theorem resetRegisters_events (s : State) :
    (resetRegisters s).events = s.events := rfl

@[simp] theorem resetRegisters_responses (s : State) :
    (resetRegisters s).responses = s.responses := rfl

@[simp] theorem resetRegisters_resets (s : State) :
    (resetRegisters s).resets = s.resets + 1 := rfl

/-! ### `answered` -/

@[simp] theorem answered_FB (s : State) (word : Word) (payload : List Byte) :
    (s.answered word payload).FB = s.FB := rfl

@[simp] theorem answered_CTL (s : State) (word : Word) (payload : List Byte) :
    (s.answered word payload).CTL = s.CTL := rfl

@[simp] theorem answered_KSREF (s : State) (word : Word) (payload : List Byte) :
    (s.answered word payload).KSREF = s.KSREF := rfl

@[simp] theorem answered_KS (s : State) (word : Word) (payload : List Byte) :
    (s.answered word payload).KS = s.KS := rfl

@[simp] theorem answered_HWREG (s : State) (word : Word) (payload : List Byte) :
    (s.answered word payload).HWREG = s.HWREG := rfl

@[simp] theorem answered_events (s : State) (word : Word) (payload : List Byte) :
    (s.answered word payload).events = s.events := rfl

@[simp] theorem answered_responses (s : State) (word : Word) (payload : List Byte) :
    (s.answered word payload).responses = s.responses ++ [⟨word, payload⟩] := rfl

@[simp] theorem answered_resets (s : State) (word : Word) (payload : List Byte) :
    (s.answered word payload).resets = s.resets := rfl

/-! ### `withFetchWord` -/

@[simp] theorem withFetchWord_FB (s : State) (nbits w : Nat) :
    (s.withFetchWord nbits w).FB = s.FB := rfl

@[simp] theorem withFetchWord_CTL (s : State) (nbits w : Nat) :
    (s.withFetchWord nbits w).CTL = s.CTL := rfl

@[simp] theorem withFetchWord_KSREF (s : State) (nbits w : Nat) :
    (s.withFetchWord nbits w).KSREF = s.KSREF := rfl

@[simp] theorem withFetchWord_KS (s : State) (nbits w : Nat) :
    (s.withFetchWord nbits w).KS = s.KS := rfl

@[simp] theorem withFetchWord_HWREG (s : State) (nbits w : Nat) :
    (s.withFetchWord nbits w).HWREG = s.HWREG := rfl

@[simp] theorem withFetchWord_events (s : State) (nbits w : Nat) :
    (s.withFetchWord nbits w).events = .command (commandOfTableWord nbits w) :: s.events := rfl

@[simp] theorem withFetchWord_responses (s : State) (nbits w : Nat) :
    (s.withFetchWord nbits w).responses = s.responses := rfl

@[simp] theorem withFetchWord_resets (s : State) (nbits w : Nat) :
    (s.withFetchWord nbits w).resets = s.resets := rfl

@[simp] theorem answered_lastOutput (s : State) (word : Word) (payload : List Byte) :
    (s.answered word payload).lastOutput = payload := by
  simp [State.lastOutput]

@[simp] theorem respond_lastOutput (opc : BitVec 4) (st : Status) (info : BitVec 24) (payload : List Byte)
    (s : State) : (respond opc st info payload s).lastOutput = payload := by
  simp [State.lastOutput]

/-- Answering is `respond` with the word it builds. -/
theorem respond_eq_answered (opc : BitVec 4) (st : Status) (info : BitVec 24) (payload : List Byte)
    (s : State) : respond opc st info payload s = s.answered (responseWord opc st info) payload := rfl

/-- Raising an error is answering with its code and nothing else (R217). -/
theorem raise_eq_answered (opc : BitVec 4) (error : Status) (s : State) :
    raise opc error s = s.answered (responseWord opc error 0#24) [] := rfl

end Sys2Proof.Machine
end

