-- ==== Sys2Proof/Laws/Commands.lean ====
section
/-! SUPPORT. One spec lemma per command: everything its execution can answer. Later proofs cite these and do not
unfold a meaning. -/

namespace Sys2Proof.Machine

@[simp] theorem exec_select (ksb : BitVec 12) (fw : BitVec 8) (s : State) :
    exec (.select ksb fw) s = execSelect ksb fw s := rfl

@[simp] theorem exec_init (dir : Direction) (fw : BitVec 8) (ksref : KsRef) (iv : List Byte) (s : State) :
    exec (.init dir fw ksref iv) s = execInit dir fw ksref iv s := rfl

@[simp] theorem exec_process (input : List Byte) (s : State) :
    exec (.process input) s = execProcess input s := rfl

/-- Everything `SELECT` can do (R173). -/
theorem execSelect_cases (ksb : BitVec 12) (fw : BitVec 8) (s : State) :
    (select s.HWREG ksb.toNat fw.toNat = none
        ∧ execSelect ksb fw s = .next (raise 1#4 .unsupportedConfiguration s))
      ∨ ∃ h, select s.HWREG ksb.toNat fw.toNat = some h
        ∧ execSelect ksb fw s = .next (respond 1#4 .ok ((handleByte h).setWidth 24) [] s) := by
  unfold execSelect
  cases h : select s.HWREG ksb.toNat fw.toNat with
  | none => exact .inl ⟨rfl, rfl⟩
  | some hd => exact .inr ⟨hd, rfl, rfl⟩

/-- Everything `INIT` can do (R192): one of the three errors, or a new context. -/
theorem execInit_cases (dir : Direction) (fw : BitVec 8) (ksref : KsRef) (iv : List Byte) (s : State) :
    (keySizeOfBits (keySlot s.KS ksref).ksb = none
        ∧ execInit dir fw ksref iv s = .next (raise 2#4 .invalidKeySize s))
      ∨ (keySizeOfBits (keySlot s.KS ksref).ksb ≠ none ∧ widthOfBits fw.toNat = none
        ∧ execInit dir fw ksref iv s = .next (raise 2#4 .unsupportedConfiguration s))
      ∨ (keySizeOfBits (keySlot s.KS ksref).ksb ≠ none ∧ widthOfBits fw.toNat ≠ none ∧ iv.length ≠ 16
        ∧ execInit dir fw ksref iv s = .next (raise 2#4 .invalidIvLength s))
      ∨ ∃ h, select s.HWREG (keySlot s.KS ksref).ksb fw.toNat = some h ∧ iv.length = 16
        ∧ execInit dir fw ksref iv s = .next (respond 2#4 .ok 0#24 [] (beginContext h dir ksref iv s)) := by
  unfold execInit select
  cases keySizeOfBits (keySlot s.KS ksref).ksb with
  | none => exact .inl ⟨rfl, rfl⟩
  | some k =>
    refine .inr ?_
    cases widthOfBits fw.toNat with
    | none => exact .inl ⟨by simp, rfl, rfl⟩
    | some w =>
      refine .inr ?_
      by_cases hiv : iv.length = 16
      · exact .inr ⟨_, rfl, hiv, by simp [hiv]⟩
      · exact .inl ⟨by simp, by simp, hiv, by simp [hiv]⟩

/-- Everything `PROCESS` can do (R102): one of the two errors, nothing for an empty input, or a pass. -/
theorem execProcess_cases (input : List Byte) (s : State) :
    (s.CTL.LS = .uninit ∧ execProcess input s = .next (raise 3#4 .uninitializedContext s))
      ∨ (s.CTL.LS = .exhausted ∧ execProcess input s = .next (raise 3#4 .streamExhausted s))
      ∨ (s.accepting ∧ input = [] ∧ execProcess input s = .next (respond 3#4 .ok 0#24 [] s))
      ∨ (s.accepting ∧ input ≠ []
        ∧ execProcess input s = .next
          (respond 3#4 .ok (BitVec.ofNat 24 input.length) (contextPass Config.E input s).out
            (storePass (contextPass Config.E input s) s))) := by
  unfold execProcess process
  cases h : s.CTL.LS with
  | uninit => exact .inl ⟨rfl, rfl⟩
  | exhausted => exact .inr (.inl ⟨rfl, rfl⟩)
  | initialized =>
    cases input with
    | nil => exact .inr (.inr (.inl ⟨.inl h, rfl, rfl⟩))
    | cons x xs => exact .inr (.inr (.inr ⟨.inl h, by simp, rfl⟩))
  | inUse =>
    cases input with
    | nil => exact .inr (.inr (.inl ⟨.inr h, rfl, rfl⟩))
    | cons x xs => exact .inr (.inr (.inr ⟨.inr h, by simp, rfl⟩))

/-- `PROCESS` with input on an accepting context. -/
theorem execProcess_pass {input : List Byte} {s : State} (h : s.accepting) (hne : input ≠ []) :
    execProcess input s = .next
      (respond 3#4 .ok (BitVec.ofNat 24 input.length) (contextPass Config.E input s).out
        (storePass (contextPass Config.E input s) s)) := by
  rcases execProcess_cases input s with ⟨hu, _⟩ | ⟨hu, _⟩ | ⟨_, hn, _⟩ | ⟨_, _, e⟩
  · rcases h with h | h <;> simp [h] at hu
  · rcases h with h | h <;> simp [h] at hu
  · exact absurd hn hne
  · exact e

/-- Everything a step can do. -/
theorem step_cases (s : State) :
    (s.events = [] ∧ step s = .next s)
      ∨ (∃ c rest, s.events = .reset c :: rest ∧ step s = .next (resetRegisters { s with events := rest }))
      ∨ (∃ c rest, s.events = .command c :: rest ∧ framed c = false
        ∧ step s = .refused .illFramedCommand)
      ∨ (∃ c rest why, s.events = .command c :: rest ∧ framed c = true ∧ decode c = .error why
        ∧ step s = .next (raise (opcodeOf c.header) .illegalCommand { s with events := rest }))
      ∨ (∃ c rest i, s.events = .command c :: rest ∧ framed c = true ∧ decode c = .ok i
        ∧ step s = exec i { s with events := rest }) := by
  unfold step
  cases he : s.events with
  | nil => exact .inl ⟨rfl, rfl⟩
  | cons e rest =>
    refine .inr ?_
    cases e with
    | reset c => exact .inl ⟨c, rest, rfl, rfl⟩
    | command c =>
      refine .inr ?_
      cases hf : framed c with
      | false => exact .inl ⟨c, rest, rfl, hf, by simp [hf, refuseIllFramed]⟩
      | true =>
        refine .inr ?_
        cases hd : decode c with
        | error why => exact .inl ⟨c, rest, why, rfl, hf, hd, by simp [hf, hd, answerIllegal]⟩
        | ok i => exact .inr ⟨c, rest, i, rfl, hf, hd, by simp [hf, hd]⟩

/-- `INIT` on operands that satisfy R187. -/
theorem execInit_succeeds (dir : Direction) {fw : BitVec 8} {ksref : KsRef} {iv : List Byte} {s : State}
    (h : s.initSucceeds fw ksref iv) :
    ∃ hd, select s.HWREG (keySlot s.KS ksref).ksb fw.toNat = some hd ∧ iv.length = 16
      ∧ execInit dir fw ksref iv s = .next (respond 2#4 .ok 0#24 [] (beginContext hd dir ksref iv s)) := by
  obtain ⟨h1, h2, h3⟩ := h
  rcases execInit_cases dir fw ksref iv s with ⟨hk, _⟩ | ⟨_, hw, _⟩ | ⟨_, _, hv, _⟩ | e
  · rw [keySizeOfBits_eq_none] at hk; exact absurd h1 hk
  · rw [widthOfBits_eq_none] at hw; exact absurd h2 hw
  · exact absurd h3 hv
  · exact e

/-- `PROCESS` on an accepting context, the empty input included, field by field: nothing but `FB`, `CTL.LS` and
the response can differ. -/
theorem execProcess_accepting {s : State} (input : List Byte) (h : s.accepting) :
    ∃ t, execProcess input s = .next t
      ∧ t.FB = (contextPass Config.E input s).fb
      ∧ t.CTL = { s.CTL with LS := if input = [] then s.CTL.LS else (contextPass Config.E input s).ls }
      ∧ t.KSREF = s.KSREF ∧ t.KS = s.KS ∧ t.HWREG = s.HWREG ∧ t.events = s.events ∧ t.resets = s.resets
      ∧ t.responses = s.responses
          ++ [⟨responseWord 3#4 .ok (BitVec.ofNat 24 input.length), (contextPass Config.E input s).out⟩] := by
  rcases execProcess_cases input s with ⟨hu, _⟩ | ⟨hu, _⟩ | ⟨_, rfl, e⟩ | ⟨_, hn, e⟩
  · rcases h with h | h <;> simp [h] at hu
  · rcases h with h | h <;> simp [h] at hu
  · refine ⟨_, e, ?_, rfl, rfl, rfl, rfl, rfl, rfl, ?_⟩ <;>
      cases hw : s.CTL.WC <;> simp only [contextPass, hw] <;> rfl
  · refine ⟨_, e, rfl, ?_, rfl, rfl, rfl, rfl, rfl, rfl⟩
    simp [contextPass, hn]

end Sys2Proof.Machine
end

