-- ==== Sys2Proof/Laws/PerInstr.lean ====
section
/-! SUPPORT. Facts about every instruction, one lemma per constructor, and the fields of the headers they rest on.
Family `EncodingFramed`: the encoding of a well-formed instruction is a framed pair (R71). -/

namespace Sys2Proof.Laws.EncodingFramed

/-- The payload of the encoding has the length its header declares. -/
def Statement (i : Instr) : Prop := i.wellFormed = true → framed (encode i) = true

theorem opcodeOf_selectHeader (ksb : BitVec 12) (fw : BitVec 8) : opcodeOf (selectHeader ksb fw) = 1#4 := by
  apply BitVec.eq_of_getLsbD_eq
  intro k hk
  interval_cases k <;>
    simp [opcodeOf, selectHeader, BitVec.getLsbD_of_ge, -BitVec.getLsbD_eq_getElem]

theorem opcodeOf_initHeader (dir : Direction) (fw n : BitVec 8) (ksref : KsRef) :
    opcodeOf (initHeader dir fw n ksref) = 2#4 := by
  apply BitVec.eq_of_getLsbD_eq
  intro k hk
  interval_cases k <;>
    simp [opcodeOf, initHeader, BitVec.getLsbD_of_ge, -BitVec.getLsbD_eq_getElem]

theorem opcodeOf_processHeader (n : BitVec 24) : opcodeOf (processHeader n) = 3#4 := by
  apply BitVec.eq_of_getLsbD_eq
  intro k hk
  interval_cases k <;>
    simp [opcodeOf, processHeader, BitVec.getLsbD_of_ge, -BitVec.getLsbD_eq_getElem]

theorem ivlen_initHeader (dir : Direction) (fw n : BitVec 8) (ksref : KsRef) :
    (initHeader dir fw n ksref).extractLsb' 8 8 = n := by
  apply BitVec.eq_of_getLsbD_eq
  intro k hk
  interval_cases k <;>
    simp [initHeader, BitVec.getLsbD_of_ge, -BitVec.getLsbD_eq_getElem]

theorem len_processHeader (n : BitVec 24) : (processHeader n).extractLsb' 0 24 = n := by
  apply BitVec.eq_of_getLsbD_eq
  intro k hk
  interval_cases k <;> simp [processHeader, -BitVec.getLsbD_eq_getElem]

theorem plen_initHeader (dir : Direction) (fw n : BitVec 8) (ksref : KsRef) :
    plen (initHeader dir fw n ksref) = n.toNat := by
  simp [plen, opcodeOf_initHeader, ivlen_initHeader]

theorem plen_processHeader (n : BitVec 24) : plen (processHeader n) = n.toNat := by
  simp [plen, opcodeOf_processHeader, len_processHeader]

theorem select (ksb : BitVec 12) (fw : BitVec 8) : Statement (.select ksb fw) := by
  intro _
  simp [framed, encode, plen, opcodeOf_selectHeader]

theorem init (dir : Direction) (fw : BitVec 8) (ksref : KsRef) (iv : List Byte) :
    Statement (.init dir fw ksref iv) := by
  intro h
  have hl : iv.length ≤ 255 := of_decide_eq_true h
  simp only [framed, encode, plen_initHeader, BitVec.toNat_ofNat, decide_eq_true_eq]
  omega

theorem process (input : List Byte) : Statement (.process input) := by
  intro h
  have hl : input.length ≤ 16777215 := of_decide_eq_true h
  simp only [framed, encode, plen_processHeader, BitVec.toNat_ofNat, decide_eq_true_eq]
  omega

end Sys2Proof.Laws.EncodingFramed
end

