-- ==== Sys2Proof/Laws/Decode.lean ====
section
/-! SUPPORT. Spec lemmas of the decoder: everything it can answer, and the fields of an encoded header. -/

namespace Sys2Proof

/-- Everything the decoder can answer with a `SELECT`. -/
theorem decode_eq_select {c : Command} {ksb : BitVec 12} {fw : BitVec 8} :
    decode c = .ok (.select ksb fw) ↔
      opcodeOf c.header = 1#4 ∧ c.header.extractLsb' 0 8 = 0#8
        ∧ c.header.extractLsb' 16 12 = ksb ∧ c.header.extractLsb' 8 8 = fw := by
  unfold decode decodeSelect decodeInit decodeProcess
  split_ifs <;> simp_all

/-- Everything the decoder can answer with an `INIT`. -/
theorem decode_eq_init {c : Command} {dir : Direction} {fw : BitVec 8} {ksref : KsRef} {iv : List Byte} :
    decode c = .ok (.init dir fw ksref iv) ↔
      opcodeOf c.header = 2#4 ∧ c.header.extractLsb' 24 3 = 0#3
        ∧ directionOfBit (c.header.getLsbD 27) = dir ∧ c.header.extractLsb' 16 8 = fw
        ∧ c.header.extractLsb' 0 8 = ksref ∧ c.payload = iv := by
  unfold decode decodeSelect decodeInit decodeProcess
  split_ifs <;> simp_all

/-- Everything the decoder can answer with a `PROCESS`. -/
theorem decode_eq_process {c : Command} {input : List Byte} :
    decode c = .ok (.process input) ↔
      opcodeOf c.header = 3#4 ∧ c.header.extractLsb' 24 4 = 0#4 ∧ c.payload = input := by
  unfold decode decodeSelect decodeInit decodeProcess
  split_ifs <;> simp_all

end Sys2Proof
end

