-- ==== Sys2Proof/Laws/Flags.lean ====
section
/-! SUPPORT. The response words of R80 and R84, as numbers. -/

namespace Sys2Proof.Machine

/-- The word of every error response: the opcode, the code, and `INFO = 0` (R217). -/
@[simp] theorem responseWord_select_unsupported :
    responseWord 1#4 .unsupportedConfiguration 0#24 = 0x13000000#32 := by decide

@[simp] theorem responseWord_init_invalidKeySize :
    responseWord 2#4 .invalidKeySize 0#24 = 0x21000000#32 := by decide

@[simp] theorem responseWord_init_unsupported :
    responseWord 2#4 .unsupportedConfiguration 0#24 = 0x23000000#32 := by decide

@[simp] theorem responseWord_init_invalidIvLength :
    responseWord 2#4 .invalidIvLength 0#24 = 0x22000000#32 := by decide

@[simp] theorem responseWord_init_ok : responseWord 2#4 .ok 0#24 = 0x20000000#32 := by decide

@[simp] theorem responseWord_process_uninitialized :
    responseWord 3#4 .uninitializedContext 0#24 = 0x34000000#32 := by decide

@[simp] theorem responseWord_process_exhausted :
    responseWord 3#4 .streamExhausted 0#24 = 0x35000000#32 := by decide

/-- The word of a successful `PROCESS`: `INFO` is the length (R80). -/
theorem responseWord_process_ok (n : BitVec 24) :
    responseWord 3#4 .ok n = 0x30000000#32 ||| n.setWidth 32 :=
  congrArg (· ||| n.setWidth 32)
    (show ((3#4).setWidth 32 <<< 28) ||| ((statusCode .ok).setWidth 32 <<< 24) = 0x30000000#32 by decide)

/-- The word of a successful `SELECT`: `INFO` is the handle (R80, R82). -/
theorem responseWord_select_ok (b : BitVec 8) :
    responseWord 1#4 .ok (b.setWidth 24) = 0x10000000#32 ||| b.setWidth 32 := by
  revert b; decide +kernel

/-- The word of `IllegalCommand` (R77, R81). -/
theorem responseWord_illegal (opc : BitVec 4) :
    responseWord opc .illegalCommand 0#24 = (opc.setWidth 32 <<< 28) ||| 0x06000000#32 := by
  revert opc; decide

end Sys2Proof.Machine
end

