-- ==== Sys2Proof/Laws/Words.lean ====
section
/-! SUPPORT. Header and response words as masks: the rows of R76 and the fields of R80, beside the fields the
decoder and `responseWord` name. -/

namespace Sys2Proof

/-- A field of a word has a value exactly when each of its bits has. -/
theorem extractLsb'_eq_iff {h : Word} {lo n : Nat} {v : BitVec n} :
    h.extractLsb' lo n = v ↔ ∀ k < n, h.getLsbD (lo + k) = v.getLsbD k := by
  refine ⟨?_, fun f => BitVec.eq_of_getLsbD_eq fun k hk => ?_⟩
  · rintro rfl k hk
    simp [hk]
  · simp [hk, f k hk]

/-- A masked word has a value exactly when each of its bits has. -/
theorem and_eq_iff {h m v : Word} :
    h &&& m = v ↔ ∀ k < 32, (h.getLsbD k && m.getLsbD k) = v.getLsbD k := by
  refine ⟨?_, fun f => BitVec.eq_of_getLsbD_eq fun k hk => ?_⟩
  · rintro rfl k _
    simp
  · rw [BitVec.getLsbD_and, f k hk]

/-- Peels the last value off a bounded universal, so that `simp` can write it out. -/
theorem forall_lt_succ_iff {P : Nat → Prop} (n : Nat) : (∀ k < n + 1, P k) ↔ (∀ k < n, P k) ∧ P n :=
  Nat.forall_lt_succ_right

/-- The row of `SELECT` (R76). -/
theorem selectRow_iff (h : Word) :
    h &&& 0xF00000FF#32 = 0x10000000#32 ↔ opcodeOf h = 1#4 ∧ h.extractLsb' 0 8 = 0#8 := by
  unfold opcodeOf
  rw [and_eq_iff, extractLsb'_eq_iff, extractLsb'_eq_iff]
  simp only [forall_lt_succ_iff, Nat.not_lt_zero, false_imp_iff, forall_const]
  simp [-BitVec.getLsbD_eq_getElem]
  tauto

/-- The row of `INIT` (R76). -/
theorem initRow_iff (h : Word) :
    h &&& 0xF7000000#32 = 0x20000000#32 ↔ opcodeOf h = 2#4 ∧ h.extractLsb' 24 3 = 0#3 := by
  unfold opcodeOf
  rw [and_eq_iff, extractLsb'_eq_iff, extractLsb'_eq_iff]
  simp only [forall_lt_succ_iff, Nat.not_lt_zero, false_imp_iff, forall_const]
  simp [-BitVec.getLsbD_eq_getElem]
  tauto

/-- The row of `PROCESS` (R76). -/
theorem processRow_iff (h : Word) :
    h &&& 0xFF000000#32 = 0x30000000#32 ↔ opcodeOf h = 3#4 ∧ h.extractLsb' 24 4 = 0#4 := by
  unfold opcodeOf
  rw [and_eq_iff, extractLsb'_eq_iff, extractLsb'_eq_iff]
  simp only [forall_lt_succ_iff, Nat.not_lt_zero, false_imp_iff, forall_const]
  simp [-BitVec.getLsbD_eq_getElem]
  tauto

/-- The opcode by a shift (R76). -/
theorem ushiftRight_eq_iff (h : Word) (v : BitVec 4) : h >>> 28 = v.setWidth 32 ↔ opcodeOf h = v := by
  unfold opcodeOf
  refine ⟨fun e => BitVec.eq_of_getLsbD_eq fun k hk => ?_, ?_⟩
  · have := congrArg (fun x => x.getLsbD k) e
    simp only [BitVec.getLsbD_ushiftRight, BitVec.getLsbD_setWidth] at this
    rw [BitVec.getLsbD_extractLsb']
    simp [hk, this, -BitVec.getLsbD_eq_getElem]
    omega
  · rintro rfl
    apply BitVec.eq_of_getLsbD_eq
    intro k hk
    rw [BitVec.getLsbD_ushiftRight, BitVec.getLsbD_setWidth, BitVec.getLsbD_extractLsb']
    by_cases h4 : k < 4
    · simp [h4, hk]
    · simp [h4, hk, BitVec.getLsbD_of_ge, show 32 ≤ 28 + k by omega]

/-- The opcode by a mask (R80). -/
theorem and_opcode (h : Word) : h &&& 0xF0000000#32 = (opcodeOf h).setWidth 32 <<< 28 := by
  rw [and_eq_iff]
  intro k hk
  unfold opcodeOf
  rw [BitVec.getLsbD_shiftLeft, BitVec.getLsbD_setWidth, BitVec.getLsbD_extractLsb']
  interval_cases k <;> simp [-BitVec.getLsbD_eq_getElem]

namespace Machine

/-- The opcode field of a response (R80). -/
theorem responseWord_opcode (opc : BitVec 4) (st : Status) (info : BitVec 24) :
    responseWord opc st info &&& 0xF0000000#32 = opc.setWidth 32 <<< 28 := by
  rw [and_eq_iff]
  intro j hj
  interval_cases j <;>
    simp [responseWord, BitVec.getLsbD_of_ge, -BitVec.getLsbD_eq_getElem]

/-- The status field of a response (R80). -/
theorem responseWord_status (opc : BitVec 4) (st : Status) (info : BitVec 24) :
    responseWord opc st info &&& 0x0F000000#32 = (statusCode st).setWidth 32 <<< 24 := by
  rw [and_eq_iff]
  intro j hj
  interval_cases j <;>
    simp [responseWord, BitVec.getLsbD_of_ge, -BitVec.getLsbD_eq_getElem]

/-- `INFO` of a response (R80). -/
theorem responseWord_info (opc : BitVec 4) (st : Status) (info : BitVec 24) :
    responseWord opc st info &&& 0x00FFFFFF#32 = info.setWidth 32 := by
  rw [and_eq_iff]
  intro j hj
  interval_cases j <;>
    simp [responseWord, BitVec.getLsbD_of_ge, -BitVec.getLsbD_eq_getElem]

end Machine

end Sys2Proof
end

