-- ==== Sys2Proof/Tests/Slice0.lean ====
section
/-! SUPPORT. Tests. Expected values are those of `spec/95_test_vectors.md` (ids V…), whose test block function is
`STUB`, or of the worked words of `spec/30_encoding.md` R84. Then, for every statement that has hypotheses, a
state and operands that meet them. -/

namespace Sys2Proof.Tests
open Sys2Proof.Machine

/-! ### The test block function, key store and machine of `95_test_vectors.md` section 2 -/

/-- `STUB(K, B)`. -/
def stub (K : RoundKeys) (b : Block) : Block :=
  blockOfBytes ((List.range 16).map fun i =>
    (byteAt b i + byteAt b (15 - i) + K.getD i 0#8 + BitVec.ofNat 8 i).rotateLeft 3)

/-- `KA`. -/
def keyA : RoundKeys := blockBytes 0xa0a1a2a3a4a5a6a7a8a9aaabacadaeaf#128

/-- `IV0`. -/
def iv0 : List Byte := [0, 1, 2, 3, 4, 5, 6, 7, 8, 9, 10, 11, 12, 13, 14, 15]

/-- `IV0` as a register value. -/
def fb0 : Block := 0x000102030405060708090a0b0c0d0e0f#128

/-- Slots 0, 1, 2 and 7 of the key store; slot 5 is empty. -/
def store : Vector KeySlot 256 :=
  (((Vector.replicate 256 (⟨0, []⟩ : KeySlot)).set 0 ⟨128, keyA⟩).set 1 ⟨192, keyA⟩).set 2 ⟨256, keyA⟩
    |>.set 7 ⟨96, keyA⟩

/-- `HWREG` empty. -/
def allReference : DispatchTable :=
  ⟨.reference, .reference, .reference, .reference, .reference, .reference, .reference, .reference, .reference⟩

/-- `HWREG = {(128, 1)}`. -/
def fastBits : DispatchTable := { allReference with k128w1 := .hardwareAccelerated }

/-- A context of width `w` with slot 0, at the lifecycle state given. -/
def machine (ls : Lifecycle) (w : Width) (dir : Direction) : State where
  FB := fb0
  CTL := { LS := ls, DIR := dir, WC := w, KC := .k128, VAR := .reference, CUR := 0#3 }
  KSREF := 0#8
  KS := store
  HWREG := allReference
  events := []
  responses := []
  resets := 0

/-- The machine with the host presenting `es`. -/
def presenting (ls : Lifecycle) (es : List Event) : State :=
  { machine ls .w128 .encrypt with events := es }

/-- The state an outcome gives, if it gives one. -/
def after (o : Host.Outcome State Fault Refusal) : Option State :=
  match o with
  | .next t => some t
  | .fault _ => none
  | .refused _ => none

/-- What a reader of the answer sees: the response words and payloads. -/
def answers (o : Host.Outcome State Fault Refusal) : Option (List Response) := (after o).map (·.responses)

/-! ### WellFormed smoke: payloads that do not fit their length field -/

theorem test_iv_too_long_is_ill_formed :
    (Instr.init .encrypt 128#8 0#8 (List.replicate 256 0#8)).wellFormed = false := by decide +kernel

/-- An input one byte longer than `MAXLEN`. -/
theorem test_input_too_long_is_ill_formed (n : Nat) (h : n = maxLen + 1) :
    (Instr.process (List.replicate n 0#8)).wellFormed = false :=
  decide_eq_false (by rw [List.length_replicate]; omega)

/-! ### Decoding, words written out from the formats of R72 to R74 -/

/-- Format S: opcode 0001, KSB 128, FW 128, zeros. -/
theorem test_decode_select :
    decode ⟨0b0001_000010000000_10000000_00000000#32, []⟩ = .ok (.select 128#12 128#8) := by decide

/-- Format I: opcode 0010, DIR 1, 000, FW 8, IVLEN 16, KSREF 2 (V2.17). -/
theorem test_decode_init :
    decode ⟨0b0010_1_000_00001000_00010000_00000010#32, List.replicate 16 0xff#8⟩
      = .ok (.init .decrypt 8#8 2#8 (List.replicate 16 0xff#8)) := by decide

/-- Format P: opcode 0011, 0000, LEN 4 (V4.1). -/
theorem test_decode_process :
    decode ⟨0b0011_0000_000000000000000000000100#32, [0x10, 0x11, 0x12, 0x13]⟩
      = .ok (.process [0x10, 0x11, 0x12, 0x13]) := by decide

/-- Reserved bits (V1.8, V2.15, V6.8) and unassigned opcodes (V6.5 to V6.7). -/
theorem test_decode_rejects :
    [0x10808001#32, 0x10808080#32, 0x21801000#32, 0x24801000#32, 0x31000004#32, 0x38000000#32,
      0x40000000#32, 0x00000000#32, 0xF0000000#32].map (fun h => decode ⟨h, []⟩)
      = [.error .reservedBitSet, .error .reservedBitSet, .error .reservedBitSet, .error .reservedBitSet,
        .error .reservedBitSet, .error .reservedBitSet, .error .unassignedOpcode, .error .unassignedOpcode,
        .error .unassignedOpcode] := by decide

/-- The encoder gives the words of R84. -/
theorem test_encode :
    (encode (.select 256#12 1#8)).header = 0x11000100#32
      ∧ (encode (.init .decrypt 1#8 3#8 iv0)).header = 0x28011003#32
      ∧ (encode (.process (List.replicate 20 0#8))).header = 0x30000014#32 := by decide

/-- The word the opcode table numbers, with the payload above it (little payload index first). -/
theorem test_decode_table_word :
    decodeTableWord 48 0x1110_30000002 = some (.process [0x10, 0x11])
      ∧ decodeTableWord 32 0x20000000 = some (.init .encrypt 0#8 0#8 [])
      ∧ decodeTableWord 32 0x10000001 = none := by decide

/-! ### The operations -/

/-- The check values of section 2: first byte 0 + 15 + 0xa0 + 0 rotated left by 3. -/
theorem test_stub : stub keyA fb0 = 0x7d8d9dadbdcdddedfd0e1e2e3e4e5e6e#128 := by decide +kernel

/-- The `CTL` words of V2.4, V2.17 and P2. -/
theorem test_ctl_word :
    ctlWord ⟨.initialized, .decrypt, .w1, .k128, .hardwareAccelerated, 0#3⟩ = 0x095#11
      ∧ ctlWord ⟨.initialized, .decrypt, .w8, .k256, .reference, 0#3⟩ = 0x04D#11
      ∧ ctlWord ⟨.inUse, .decrypt, .w8, .k128, .reference, 0#3⟩ = 0x00E#11 := by decide

/-- V3.11 (two chunks and one byte, encrypt) and V3.3 (decrypt: `FB` from the input). -/
theorem test_cfb128_vectors :
    cfb128 (stub keyA) .encrypt fb0 0
        (blockBytes 0x101112131415161718191a1b1c1d1e1f#128 ++ blockBytes 0x202122232425262728292a2b2c2d2e2f#128
          ++ [0x30])
      = ⟨0xd3d216171011524b548dae8fe8c9eacb#128, 0, .exhausted,
          blockBytes 0x6d9c8fbea9d8cbfae517043522534071#128
            ++ blockBytes 0xd3d216171011524b548dae8fe8c9eacb#128 ++ [0xc1]⟩
    ∧ cfb128 (stub keyA) .decrypt fb0 0
        (blockBytes 0x101112131415161718191a1b1c1d1e1f#128 ++ blockBytes 0x202122232425262728292a2b2c2d2e2f#128)
      = ⟨0x202122232425262728292a2b2c2d2e2f#128, 0, .inUse,
          blockBytes 0x6d9c8fbea9d8cbfae517043522534071#128
            ++ blockBytes 0x5eafbc8d9aebf8c9d626350413627140#128⟩ := by decide +kernel

/-- V4.1 (encrypt), V4.3 (decrypt: feedback from the input) and V4.11 (the byte shifted out is lost). -/
theorem test_cfb8_vectors :
    cfb8 (stub keyA) .encrypt fb0 0 [0x10, 0x11, 0x12, 0x13]
      = ⟨0x0405060708090a0b0c0d0e0f6d610a7e#128, 0, .inUse, [0x6d, 0x61, 0x0a, 0x7e]⟩
    ∧ cfb8 (stub keyA) .decrypt fb0 0 [0x10, 0x11, 0x12, 0x13]
      = ⟨0x0405060708090a0b0c0d0e0f10111213#128, 0, .inUse, [0x6d, 0x9c, 0x8f, 0xbe]⟩
    ∧ (cfb8 (stub keyA) .encrypt 0x80000000000000000000000000000001#128 0 [0]).fb
      = 0x00000000000000000000000000000109#128 := by decide +kernel

/-- V5.1 (encrypt), V5.4 (decrypt: feedback from the input) and V5.10 (the bit shifted out is lost). -/
theorem test_cfb1_vectors :
    cfb1 (stub keyA) .encrypt fb0 0 [0xa5, 0xc3]
      = ⟨0x02030405060708090a0b0c0d0e0fdb22#128, 0, .inUse, [0xdb, 0x22]⟩
    ∧ cfb1 (stub keyA) .decrypt fb0 0 [0xff]
      = ⟨0x0102030405060708090a0b0c0d0e0fff#128, 0, .inUse, [0x80]⟩
    ∧ (cfb1 (stub keyA) .encrypt 0x80000000000000000000000000000001#128 0 [0]).fb
      = 0x00000000000000000000000000000108#128 := by decide +kernel

/-- The evaluations of V3.11, V4.1 and V5.1: 3, 4 and 16; and the register values of V5.1's bit trace. -/
theorem test_evaluations :
    (cfbEvaluations .w128 (stub keyA) .encrypt fb0 0 (List.replicate 33 0#8)).length = 3
      ∧ (cfbEvaluations .w8 (stub keyA) .encrypt fb0 0 [0x10, 0x11, 0x12, 0x13]).length = 4
      ∧ (cfbEvaluations .w1 (stub keyA) .encrypt fb0 0 [0xa5, 0xc3]).length = 16
      ∧ (cfbEvaluations .w1 (stub keyA) .encrypt fb0 0 [0xa5, 0xc3]).take 4
        = [0x000102030405060708090a0b0c0d0e0f#128, 0x00020406080a0c0e10121416181a1c1f#128,
          0x0004080c1014181c2024282c3034383f#128, 0x0008101820283038404850586068707e#128] := by
  decide +kernel

/-! ### The commands -/

/-- V1.1, V1.3, V1.4 and V1.10. -/
theorem test_select_words :
    [(128#12, 128#8), (96#12, 128#8), (128#12, 7#8), (8#12, 128#8)].map
        (fun p => answers (exec (.select p.1 p.2) (machine .uninit .w8 .encrypt)))
      = [some [⟨0x10000080#32, []⟩], some [⟨0x13000000#32, []⟩], some [⟨0x13000000#32, []⟩],
        some [⟨0x13000000#32, []⟩]] := by decide +kernel

/-- V1.9: the handle of an accelerated pair. -/
theorem test_select_accelerated :
    answers (exec (.select 128#12 1#8) { machine .exhausted .w128 .encrypt with HWREG := fastBits })
      = some [⟨0x10000092#32, []⟩] := by decide +kernel

/-- V2.17: a running context is replaced, every field of it. -/
theorem test_init_replaces_the_context :
    (after (exec (.init .decrypt 8#8 2#8 (List.replicate 16 0xff#8)) (machine .initialized .w128 .encrypt))).map
        (fun t => (t.FB, ctlWord t.CTL, t.KSREF, t.responses))
      = some (0xffffffffffffffffffffffffffffffff#128, 0x04D#11, 2#8, [⟨0x20000000#32, []⟩]) := by
  decide +kernel

/-- V2.7, V2.8, V2.10, V2.13 and V2.14: the errors and their order. -/
theorem test_init_errors :
    [(128#8, 5#8, iv0), (128#8, 7#8, iv0), (128#8, 0#8, iv0.take 15), (7#8, 5#8, iv0.take 15),
        (7#8, 0#8, iv0.take 15)].map
        (fun p => answers (exec (.init .encrypt p.1 p.2.1 p.2.2) (machine .uninit .w8 .encrypt)))
      = [some [⟨0x21000000#32, []⟩], some [⟨0x21000000#32, []⟩], some [⟨0x22000000#32, []⟩],
        some [⟨0x21000000#32, []⟩], some [⟨0x23000000#32, []⟩]] := by decide +kernel

/-- V3.8: a partial chunk is answered, leaves `FB`, and exhausts the context. -/
theorem test_process_partial_chunk :
    let t := process stub [0x10, 0x11, 0x12, 0x13, 0x14] (machine .initialized .w128 .encrypt)
    t.FB = fb0 ∧ ctlWord t.CTL = 0x003#11
      ∧ t.responses = [⟨0x30000005#32, [0x6d, 0x9c, 0x8f, 0xbe, 0xa9]⟩] := by decide +kernel

/-- V6.1 to V6.4 and V4.6: the lifecycle test, the empty input included. -/
theorem test_process_lifecycle :
    [(.uninit, [0xde, 0xad]), (.uninit, []), (.exhausted, [0]), (.exhausted, []), (.initialized, [])].map
        (fun p : Lifecycle × List Byte =>
          ((process stub p.2 (machine p.1 .w8 .encrypt)).CTL.LS,
            (process stub p.2 (machine p.1 .w8 .encrypt)).responses))
      = [(.uninit, [⟨0x34000000#32, []⟩]), (.uninit, [⟨0x34000000#32, []⟩]),
        (.exhausted, [⟨0x35000000#32, []⟩]), (.exhausted, [⟨0x35000000#32, []⟩]),
        (.initialized, [⟨0x30000000#32, []⟩])] := by decide +kernel

/-! ### The step -/

/-- V6.5, V6.8 and V6.9: illegal headers are answered, their payload consumed. -/
theorem test_step_illegal_headers :
    [(⟨0x40000000#32, []⟩ : Command), ⟨0x31000004#32, [1, 2, 3, 4]⟩, ⟨0x38000000#32, []⟩].map
        (fun c => answers (step (presenting .uninit [.command c])))
      = [some [⟨0x46000000#32, []⟩], some [⟨0x36000000#32, []⟩], some [⟨0x36000000#32, []⟩]] := by
  decide +kernel

/-- A pair with a payload the header does not declare is no command (R71). -/
theorem test_step_ill_framed :
    step (presenting .inUse [.command ⟨0x30000004#32, [1, 2, 3]⟩]) = .refused .illFramedCommand := rfl

/-- The first command presented is the one that runs, even from reset. -/
theorem test_fetch_word_runs :
    answers (step (State.reset.withFetchWord 32 0x10608000)) = some [⟨0x13000000#32, []⟩]
      ∧ answers (step (State.reset.withFetchWord 32 0x30000001)) = some [⟨0x34000000#32, []⟩] := by
  decide +kernel

/-! ### Witnesses: for every statement with hypotheses, states and operands that meet them -/

/-- `INIT.E 128, 0, IV0` as the host presents it. -/
def initCommand : Command := ⟨0x20801000#32, iv0⟩

/-- The machine with other registers, other events and other answers. -/
def otherRegisters (ls : Lifecycle) : State :=
  { machine ls .w1 .decrypt with FB := 5#128, KSREF := 7#8, events := [.reset none], resets := 3 }

/-- A reset during a command, and a framed command. -/
theorem witness_ResetAbandonsTheCommandWithoutResponse :
    (presenting .inUse [.reset (some initCommand), .command initCommand]).events
        = .reset (some initCommand) :: [.command initCommand]
      ∧ (presenting .inUse [.command initCommand]).events = .command initCommand :: []
      ∧ framed initCommand = true := by decide

/-- Two engines in `Uninit` that differ in every register that may differ. -/
theorem witness_UninitRegistersCannotBeRead :
    (machine .uninit .w8 .encrypt).CTL.LS = .uninit ∧ (otherRegisters .uninit).CTL.LS = .uninit
      ∧ (machine .uninit .w8 .encrypt).KS = (otherRegisters .uninit).KS
      ∧ (machine .uninit .w8 .encrypt).HWREG = (otherRegisters .uninit).HWREG
      ∧ (machine .uninit .w8 .encrypt).FB ≠ (otherRegisters .uninit).FB :=
  ⟨rfl, rfl, rfl, rfl, by decide⟩

theorem witness_IdleEngineWaits : (machine .inUse .w8 .encrypt).events = [] := rfl

/-- One framed command of each family that decodes. -/
theorem witness_StepRunsTheDecodedCommand :
    ∀ p ∈ [((⟨0x10808000#32, []⟩ : Command), Instr.select 128#12 128#8), (initCommand, .init .encrypt 128#8 0#8 iv0),
        (⟨0x30000001#32, [7]⟩, .process [7])],
      (presenting .inUse [.command p.1]).events = .command p.1 :: [] ∧ framed p.1 = true
        ∧ decode p.1 = .ok p.2 := by decide

/-- Illegal headers with one bit wrong, and with an unassigned opcode. -/
theorem witness_IllegalHeaderIsAnsweredAndChangesNothing :
    ∀ c ∈ [(⟨0x10808001#32, []⟩ : Command), ⟨0x10808080#32, []⟩, ⟨0x21801000#32, iv0⟩, ⟨0x24801000#32, iv0⟩,
        ⟨0x31000001#32, [7]⟩, ⟨0x38000000#32, []⟩, ⟨0x00000000#32, []⟩, ⟨0x40000000#32, []⟩, ⟨0xF0000000#32, []⟩],
      (presenting .inUse [.command c]).events = .command c :: [] ∧ framed c = true
        ∧ c.header &&& 0xF00000FF#32 ≠ 0x10000000#32 ∧ c.header &&& 0xF7000000#32 ≠ 0x20000000#32
        ∧ c.header &&& 0xFF000000#32 ≠ 0x30000000#32 := by decide

/-- One header for each clause, legal and illegal ones, and a pair whose payload is one byte short or long. -/
theorem witness_IllFramedPairIsRefused :
    (0x2080FF00#32 >>> 28 = 2#32 ∧ plen 0x2080FF00#32 = 255 ∧ plen 0x27800000#32 = 0)
      ∧ (0x30FFFFFF#32 >>> 28 = 3#32 ∧ plen 0x30FFFFFF#32 = 16777215 ∧ plen 0x31000004#32 = 4)
      ∧ (0x4000FFFF#32 >>> 28 ≠ 2#32 ∧ 0x4000FFFF#32 >>> 28 ≠ 3#32 ∧ plen 0x4000FFFF#32 = 0)
      ∧ ∀ c ∈ [(⟨0x10808000#32, [0]⟩ : Command), ⟨0x30000002#32, [0]⟩],
          (presenting .inUse [.command c]).events = .command c :: [] ∧ c.payload.length ≠ plen c.header := by
  decide

theorem witness_FramedPortNeverStops :
    (presenting .uninit [.command initCommand, .reset none, .command ⟨0x30000001#32, [7]⟩]).portFramed := by
  intro c hc
  have : c = initCommand ∨ c = ⟨0x30000001#32, [7]⟩ := by simpa [presenting] using hc
  rcases this with rfl | rfl <;> decide

/-- Framed commands that reach each clause: an error, a `PROCESS` of one byte, an `INIT`, a `SELECT`. -/
theorem witness_EveryCommandIsAnsweredOnceAndErrorsArePrecise :
    (∀ c ∈ [(⟨0x10608000#32, []⟩ : Command), ⟨0x30000001#32, [7]⟩, initCommand, ⟨0x11000100#32, []⟩], framed c = true)
      ∧ answers (step (presenting .inUse [.command ⟨0x10608000#32, []⟩])) = some [⟨0x13000000#32, []⟩]
      ∧ answers (step (presenting .inUse [.command initCommand])) = some [⟨0x20000000#32, []⟩]
      ∧ answers (step (presenting .inUse [.command ⟨0x11000100#32, []⟩])) = some [⟨0x1000008A#32, []⟩]
      ∧ (answers (step (presenting .inUse [.command ⟨0x30000001#32, [7]⟩]))).map (·.map (·.word))
        = some [0x30000001#32] := by decide +kernel

theorem witness_RunConstantsNeverChange :
    ∃ t, step (presenting .uninit [.command initCommand]) = .next t := ⟨_, rfl⟩

/-- The largest operands each format admits. -/
theorem witness_DecodeOfEncodeIsTheInstruction :
    (Instr.select 4095#12 255#8).wellFormed = true
      ∧ (Instr.init .decrypt 255#8 255#8 (List.replicate 255 0#8)).wellFormed = true
      ∧ ∀ n, n = maxLen → (Instr.process (List.replicate n 0#8)).wellFormed = true :=
  ⟨rfl, by decide +kernel, fun n h => decide_eq_true (by rw [List.length_replicate]; omega)⟩

theorem witness_EncodeOfDecodeIsTheCommand :
    framed initCommand = true ∧ decode initCommand = .ok (.init .encrypt 128#8 0#8 iv0)
      ∧ encode (.init .encrypt 128#8 0#8 iv0) = initCommand := by decide

/-- Rows of the table, one for each outcome of the dispatch table. -/
theorem witness_SelectAnswersTheHandleOfTheTable :
    (.k128, .w1, 128#12, 1#8, 0x82#32, 0x92#32) ∈ handleTable
      ∧ dispatchRow allReference .k128 .w1 = .reference
      ∧ dispatchRow fastBits .k128 .w1 = .hardwareAccelerated := by decide

/-- Pairs at the edges of both clauses. -/
theorem witness_SelectRefusesExactlyTheUnsupportedPairs :
    (∀ p ∈ [(0#12, 0#8), (4095#12, 255#8), (127#12, 128#8), (128#12, 7#8), (128#12, 0#8)],
      (p.1.toNat ≠ 128 ∧ p.1.toNat ≠ 192 ∧ p.1.toNat ≠ 256)
        ∨ (p.2.toNat ≠ 128 ∧ p.2.toNat ≠ 8 ∧ p.2.toNat ≠ 1))
      ∧ ∀ p ∈ [(128#12, 128#8), (192#12, 8#8), (256#12, 1#8)],
        (p.1.toNat = 128 ∨ p.1.toNat = 192 ∨ p.1.toNat = 256)
          ∧ (p.2.toNat = 128 ∨ p.2.toNat = 8 ∨ p.2.toNat = 1) := by simp

/-- Each key size and each width. -/
theorem witness_InitBeginsTheContext :
    ∀ p ∈ [(0#8, KeySize.k128, 128#8, Width.w128), (1#8, .k192, 8#8, .w8), (2#8, .k256, 1#8, .w1)],
      (keySlot (machine .uninit .w1 .decrypt).KS p.1).ksb = keySizeBits p.2.1
        ∧ p.2.2.1.toNat = widthBits p.2.2.2 ∧ iv0.length = 16 := by decide +kernel

/-- The three errors: an empty slot and a 96-bit one, a width of 7, IVs of 0, 15 and 17 bytes. -/
theorem witness_InitReportsTheFirstErrorAndChangesNothing :
    (∀ ref ∈ [5#8, 7#8, 255#8], (keySlot store ref).ksb ≠ 128 ∧ (keySlot store ref).ksb ≠ 192
        ∧ (keySlot store ref).ksb ≠ 256)
      ∧ (keySlot store 0#8).ksb = 128
      ∧ ((7#8).toNat ≠ 128 ∧ (7#8).toNat ≠ 8 ∧ (7#8).toNat ≠ 1)
      ∧ ∀ iv ∈ [[], iv0.take 15, iv0 ++ [0#8]], iv.length ≠ 16 := by decide +kernel

theorem witness_InitLeavesNothingOfTheOldContext :
    (machine .inUse .w8 .encrypt).KS = (otherRegisters .exhausted).KS
      ∧ (machine .inUse .w8 .encrypt).HWREG = (otherRegisters .exhausted).HWREG
      ∧ (machine .inUse .w8 .encrypt).initSucceeds 1#8 2#8 iv0 :=
  ⟨rfl, rfl, by decide +kernel⟩

theorem witness_ProcessIsRefusedOutsideAStream :
    (machine .uninit .w128 .encrypt).CTL.LS = .uninit ∧ (machine .exhausted .w128 .encrypt).CTL.LS = .exhausted
      ∧ (machine .initialized .w8 .encrypt).accepting ∧ (machine .inUse .w128 .encrypt).accepting := by decide

theorem witness_EmptyProcessWritesNothing :
    (machine .initialized .w128 .encrypt).accepting ∧ (machine .inUse .w1 .decrypt).accepting := by decide

/-- One byte, a whole chunk, and a chunk and a byte. -/
theorem witness_Cfb128ChunksAreMaskedAndFedBack :
    ∀ input ∈ [[7#8], iv0, iv0 ++ [7#8]],
      (machine .initialized .w128 .encrypt).accepting ∧ (machine .initialized .w128 .encrypt).CTL.WC = .w128
        ∧ input ≠ [] := by decide

theorem witness_Cfb8BytesAreMaskedAndFedBack :
    (machine .inUse .w8 .decrypt).accepting ∧ (machine .inUse .w8 .decrypt).CTL.WC = .w8 ∧ [7#8] ≠ [] := by decide

theorem witness_Cfb1BitsAreMaskedAndFedBack :
    (machine .inUse .w1 .decrypt).accepting ∧ (machine .inUse .w1 .decrypt).CTL.WC = .w1 ∧ [7#8] ≠ [] := by decide

theorem witness_ProcessKeepsTheContextsParameters :
    ∃ t, exec (.process [7]) (machine .initialized .w128 .encrypt) = .next t := ⟨_, rfl⟩

/-- Inputs that agree on 16 bytes and differ in the next. -/
theorem witness_OutputNeverDependsOnLaterInput :
    (machine .initialized .w128 .encrypt).accepting
      ∧ (iv0 ++ [1#8]).take 16 = (iv0 ++ [2#8]).take 16 ∧ iv0 ++ [1#8] ≠ iv0 ++ [2#8] := by decide

theorem witness_EvaluationsAreCountedByWidth :
    (machine .inUse .w128 .encrypt).accepting ∧ ¬(machine .exhausted .w128 .encrypt).accepting
      ∧ ¬(machine .uninit .w1 .encrypt).accepting := by decide

/-- Two block functions that differ and agree on the one evaluation made. -/
theorem witness_ResultDependsOnlyOnTheListedEvaluations :
    processEvaluations stub [7] (machine .inUse .w8 .encrypt) = [fb0]
      ∧ stub keyA fb0 = (fun (_ : RoundKeys) (_ : Block) => 0x7d8d9dadbdcdddedfd0e1e2e3e4e5e6e#128) keyA fb0
      ∧ stub keyA 0#128 ≠ 0x7d8d9dadbdcdddedfd0e1e2e3e4e5e6e#128 := by decide +kernel

/-- A whole chunk, an empty piece, a partial one; a partial piece that is not the last; and, in CFB8, any pieces. -/
theorem witness_StreamingInPiecesEqualsOneCall :
    (machine .initialized .w128 .encrypt).accepting
      ∧ (∀ p ∈ [iv0, [], [7#8]].dropLast, p.length % 16 = 0)
      ∧ (machine .initialized .w128 .encrypt).CTL.WC = .w128 ∧ [7#8].length % 16 ≠ 0
      ∧ (machine .inUse .w8 .encrypt).accepting ∧ (machine .inUse .w8 .encrypt).CTL.WC ≠ .w128 := by decide

theorem witness_DecryptUndoesEncrypt :
    (machine .uninit .w8 .encrypt).KS = (otherRegisters .exhausted).KS
      ∧ (machine .uninit .w8 .encrypt).initSucceeds 128#8 0#8 iv0 :=
  ⟨rfl, by decide +kernel⟩

/-- 20 bytes of ciphertext, the byte at index 1 corrupted. -/
theorem witness_Cfb8CiphertextErrorIsConfined :
    (machine .inUse .w8 .decrypt).accepting ∧ (machine .inUse .w8 .decrypt).CTL.WC = .w8
      ∧ (machine .inUse .w8 .decrypt).CTL.DIR = .decrypt
      ∧ (List.replicate 20 0#8).length = ((List.replicate 20 0#8).set 1 9#8).length
      ∧ (List.replicate 20 0#8).getD 1 0#8 ≠ ((List.replicate 20 0#8).set 1 9#8).getD 1 0#8
      ∧ ∀ k, k ≠ 1 → (List.replicate 20 0#8).getD k 0#8 = ((List.replicate 20 0#8).set 1 9#8).getD k 0#8 := by
  refine ⟨by decide, rfl, rfl, by decide, by decide, fun k hk => ?_⟩
  simp only [List.getD_eq_getElem?_getD, List.getElem?_set_ne (Ne.symm hk)]

/-- A framed command for each arm of the transition table. -/
theorem witness_LifecycleTransitions :
    (∀ c ∈ [(⟨0x40000000#32, []⟩ : Command), ⟨0x10808000#32, []⟩, initCommand, ⟨0x30000000#32, []⟩,
        ⟨0x30000001#32, [7]⟩], framed c = true)
      ∧ (machine .uninit .w8 .encrypt).initSucceeds 128#8 0#8 iv0
      ∧ ¬(machine .uninit .w8 .encrypt).initSucceeds 128#8 5#8 iv0 := by decide +kernel

/-- One byte, and a chunk and 15 bytes; and an exhausted context that a new `INIT` ends. -/
theorem witness_ExhaustedIsTerminal :
    ((machine .initialized .w128 .encrypt).accepting ∧ (machine .initialized .w128 .encrypt).CTL.WC = .w128)
      ∧ (∀ input ∈ [[7#8], iv0 ++ iv0.take 15], input.length % 16 ≠ 0)
      ∧ (machine .exhausted .w128 .encrypt).CTL.LS = .exhausted
      ∧ (after (exec (.init .encrypt 128#8 0#8 iv0) (machine .exhausted .w128 .encrypt))).map (·.CTL.LS)
        = some .initialized := by decide +kernel

/-- Engines with equal registers that differ in what surrounds them. -/
theorem witness_EqualEnginesBehaveEqually :
    (machine .inUse .w8 .encrypt).sameEngine { machine .inUse .w8 .encrypt with events := [.reset none], resets := 2 }
      ∧ (machine .inUse .w8 .encrypt).events ≠ [.reset none] :=
  ⟨⟨rfl, rfl, rfl, rfl, rfl⟩, by decide⟩

/-- A register that holds the last 16 of 18 bytes, and commands that run. -/
theorem witness_FeedbackRegisterHoldsTheCiphertextStream :
    (machine .inUse .w8 .encrypt).holdsStream ([1, 2] ++ iv0)
      ∧ ∃ t, exec (.process [7]) (machine .inUse .w8 .encrypt) = .next t :=
  ⟨fun _ => by decide +kernel, _, rfl⟩

/-- A context that exists and is exhausted, and a step that runs. -/
theorem witness_EveryStepKeepsTheContextInvariant :
    (presenting .exhausted [.command initCommand]).contextInv
      ∧ (presenting .exhausted [.command initCommand]).CTL.LS ≠ .uninit
      ∧ ∃ t, step (presenting .exhausted [.command initCommand]) = .next t :=
  ⟨by decide +kernel, by decide, _, rfl⟩

end Sys2Proof.Tests
end

section
/-! PROOFS. The statements about the state as a whole: what every command reads and writes, the register and the
stream it holds, the context invariant, and the layout of `CTL`. -/

namespace Sys2Proof.Machine

/-! ### What a command can write -/

/-- An outcome answers at most one next state. -/
theorem next_unique {o : Host.Outcome State Fault Refusal} {t t' : State} (e : o = .next t) (e' : o = .next t') :
    t = t' := Host.Outcome.next.inj (e.symm.trans e')

/-- Everything a command can do to the registers: answer and change none, begin a context (R189 to R191), or store
the pass of a non-empty `PROCESS` (R33, R108). -/
theorem exec_next_cases {i : Instr} {s t : State} (e : exec i s = .next t) :
    (∃ word, t = s.answered word [])
      ∨ (∃ dir fw ksref iv h, i = .init dir fw ksref iv
        ∧ select s.HWREG (keySlot s.KS ksref).ksb fw.toNat = some h ∧ iv.length = 16
        ∧ t = respond 2#4 .ok 0#24 [] (beginContext h dir ksref iv s))
      ∨ ∃ input, i = .process input ∧ s.accepting ∧ input ≠ []
        ∧ t = respond 3#4 .ok (BitVec.ofNat 24 input.length) (contextPass Config.E input s).out
          (storePass (contextPass Config.E input s) s) := by
  cases i with
  | select ksb fw =>
    rcases execSelect_cases ksb fw s with ⟨_, e'⟩ | ⟨h, _, e'⟩ <;>
      exact .inl ⟨_, next_unique e e'⟩
  | init dir fw ksref iv =>
    rcases execInit_cases dir fw ksref iv s with
      ⟨_, e'⟩ | ⟨_, _, e'⟩ | ⟨_, _, _, e'⟩ | ⟨h, hs, hl, e'⟩
    · exact .inl ⟨_, next_unique e e'⟩
    · exact .inl ⟨_, next_unique e e'⟩
    · exact .inl ⟨_, next_unique e e'⟩
    · exact .inr (.inl ⟨dir, fw, ksref, iv, h, rfl, hs, hl, next_unique e e'⟩)
  | process input =>
    rcases execProcess_cases input s with ⟨_, e'⟩ | ⟨_, e'⟩ | ⟨_, _, e'⟩ | ⟨ha, hne, e'⟩
    · exact .inl ⟨_, next_unique e e'⟩
    · exact .inl ⟨_, next_unique e e'⟩
    · exact .inl ⟨_, next_unique e e'⟩
    · exact .inr (.inr ⟨input, rfl, ha, hne, next_unique e e'⟩)

/-- Everything a step that answers a next state can do: wait, reset, answer an illegal header, or run a command. -/
theorem step_next_cases {s t : State} (e : step s = .next t) :
    t = s
      ∨ (∃ rest, t = resetRegisters { s with events := rest })
      ∨ (∃ rest word, t = { s with events := rest }.answered word [])
      ∨ ∃ rest i, exec i { s with events := rest } = .next t := by
  rcases step_cases s with
    ⟨_, e'⟩ | ⟨_, rest, _, e'⟩ | ⟨_, _, _, _, e'⟩ | ⟨_, rest, _, _, _, _, e'⟩ |
    ⟨_, rest, i, _, _, _, e'⟩
  · exact .inl (next_unique e e')
  · exact .inr (.inl ⟨rest, next_unique e e'⟩)
  · exact nomatch e.symm.trans e'
  · exact .inr (.inr (.inl ⟨rest, _, next_unique e e'⟩))
  · exact .inr (.inr (.inr ⟨rest, i, e'.symm.trans e⟩))

/-! ### What a command reads -/

/-- `SELECT` reads the dispatch table only (R171, R173): engines that share it are answered alike, and it writes no
register. -/
theorem execSelect_reads_table (ksb : BitVec 12) (fw : BitVec 8) (table : DispatchTable) :
    ∃ word, ∀ s : State, s.HWREG = table → execSelect ksb fw s = .next (s.answered word []) := by
  cases h : select table ksb.toNat fw.toNat with
  | none => exact ⟨_, fun s hs => by rw [execSelect, hs, h]; rfl⟩
  | some hd => exact ⟨_, fun s hs => by rw [execSelect, hs, h]; rfl⟩

/-- `INIT` reads the constants of the run only (R187, R188): on engines that share them it fails alike, or begins the
same context. -/
theorem execInit_reads_runConstants (dir : Direction) (fw : BitVec 8) (ksref : KsRef) (iv : List Byte)
    (KS : Vector KeySlot 256) (table : DispatchTable) :
    (∃ word, ∀ s : State, s.KS = KS → s.HWREG = table →
        execInit dir fw ksref iv s = .next (s.answered word []))
      ∨ ∃ word h, ∀ s : State, s.KS = KS → s.HWREG = table →
        execInit dir fw ksref iv s = .next ((beginContext h dir ksref iv s).answered word []) := by
  cases hk : keySizeOfBits (keySlot KS ksref).ksb with
  | none => exact .inl ⟨_, fun s hKS _ => by rw [execInit, hKS, hk]; rfl⟩
  | some _ =>
    cases hsel : select table (keySlot KS ksref).ksb fw.toNat with
    | none => exact .inl ⟨_, fun s hKS hT => by rw [execInit, hKS, hT, hk, hsel]; rfl⟩
    | some h =>
      by_cases hl : iv.length = 16
      · exact .inr ⟨_, h, fun s hKS hT => by rw [execInit, hKS, hT, hk, hsel]; simp only [if_pos hl]; rfl⟩
      · exact .inl ⟨_, fun s hKS hT => by rw [execInit, hKS, hT, hk, hsel]; simp only [if_neg hl]; rfl⟩

/-- With no context `PROCESS` is refused, whatever the registers hold (R101). -/
theorem execProcess_uninit {s : State} (input : List Byte) (h : s.CTL.LS = .uninit) :
    execProcess input s = .next (raise 3#4 .uninitializedContext s) := by
  simp only [execProcess, process, h]

/-- On an exhausted context `PROCESS` is refused, whatever the other registers hold (R101). -/
theorem execProcess_exhausted {s : State} (input : List Byte) (h : s.CTL.LS = .exhausted) :
    execProcess input s = .next (raise 3#4 .streamExhausted s) := by
  simp only [execProcess, process, h]

/-- The pass of a `PROCESS` reads registers and constants only. -/
theorem contextPass_congr {s s' : State} (h : s.sameEngine s') (E : RoundKeys → Block → Block)
    (input : List Byte) : contextPass E input s = contextPass E input s' := by
  obtain ⟨hFB, hCTL, hKSREF, hKS, _⟩ := h
  rw [contextPass, contextPass, contextCipher, contextCipher, hFB, hCTL, hKSREF, hKS]

/-! ### Which bytes a pass shifts into the register -/

theorem length_fedBack {α : Type} {o x : List α} (dir : Direction) (h : o.length = x.length) :
    (fedBack dir o x).length = x.length := by
  cases dir
  · exact h
  · rfl

/-- The eight bits of a byte, shifted in bit 7 first, are the byte shifted in (R157 (b)). -/
theorem foldl_shiftInBit_bitsOfByte (b : Block) (c : Byte) :
    (bitsOfByte c).foldl shiftInBit b = shiftInByte b c := by
  apply BitVec.eq_of_getLsbD_eq
  intro k hk
  simp only [bitsOfByte, List.map_cons, List.map_nil, List.foldl_cons, List.foldl_nil]
  rcases Nat.lt_or_ge k 8 with h | h
  · interval_cases k <;> simp [shiftInByte, getLsbD_shiftInBit, -BitVec.getLsbD_eq_getElem]
  · obtain ⟨j, rfl⟩ : ∃ j, k = j + 8 := ⟨k - 8, by omega⟩
    simp (disch := omega) [shiftInByte, getLsbD_shiftInBit, BitVec.getLsbD_of_ge, hk,
      -BitVec.getLsbD_eq_getElem]

/-- Shifting in the bits of a byte sequence is shifting in its bytes. -/
theorem foldl_shiftInBit_flatMap_bitsOfByte (b : Block) (xs : List Byte) :
    (xs.flatMap bitsOfByte).foldl shiftInBit b = xs.foldl shiftInByte b := by
  induction xs generalizing b with
  | nil => rfl
  | cons x xs ih =>
    rw [List.flatMap_cons, List.foldl_append, foldl_shiftInBit_bitsOfByte, ih, List.foldl_cons]

/-- A block is determined by its byte view. -/
theorem blockBytes_injective : Function.Injective blockBytes :=
  Function.LeftInverse.injective blockOfBytes_blockBytes

/-- Sixteen bytes shifted in leave nothing of the old register (R122). -/
theorem foldl_shiftInByte_of_length {bs : List Byte} (h : bs.length = 16) (b : Block) :
    bs.foldl shiftInByte b = blockOfBytes bs := by
  apply blockBytes_injective
  rw [blockBytes_foldl_shiftInByte, blockBytes_blockOfBytes h, h]
  exact List.drop_left' (length_blockBytes b)

/-- A CFB8 pass shifts in its ciphertext (R137). -/
theorem cfb8_fb_eq_foldl (enc : Block → Block) (dir : Direction) (fb : Block) (cur : BitVec 3) (xs : List Byte) :
    (cfb8 enc dir fb cur xs).fb = (fedBack dir (cfb8 enc dir fb cur xs).out xs).foldl shiftInByte fb :=
  passUnits_byteUnit_fb enc dir fb xs

/-- A CFB1 pass shifts in its ciphertext, bit by bit and so byte by byte (R153, R157 (b)). -/
theorem cfb1_fb_eq_foldl (enc : Block → Block) (dir : Direction) (fb : Block) (cur : BitVec 3) (xs : List Byte) :
    (cfb1 enc dir fb cur xs).fb = (fedBack dir (cfb1 enc dir fb cur xs).out xs).foldl shiftInByte fb := by
  obtain ⟨hr, ho⟩ := passUnits_bitsUnit enc dir (fb, cur) xs
  have hbits : fedBack dir ((cfb1 enc dir fb cur xs).out.flatMap bitsOfByte) (xs.flatMap bitsOfByte)
      = (fedBack dir (cfb1 enc dir fb cur xs).out xs).flatMap bitsOfByte := by cases dir <;> rfl
  calc (cfb1 enc dir fb cur xs).fb
      = (passUnits (bitUnit enc dir) (fb, cur) (xs.flatMap bitsOfByte)).1.1 := congrArg Prod.fst hr
    _ = (fedBack dir ((cfb1 enc dir fb cur xs).out.flatMap bitsOfByte) (xs.flatMap bitsOfByte)).foldl
          shiftInBit fb := by rw [passUnits_bitUnit_fb, ← ho]; rfl
    _ = (fedBack dir (cfb1 enc dir fb cur xs).out xs).foldl shiftInByte fb := by
          rw [hbits, foldl_shiftInBit_flatMap_bitsOfByte]

/-- The first chunk of the fed-back bytes of CFB128 is the block the chunk step leaves in the register (R122). -/
theorem fedBack_blockBytes_chunkUnit (enc : Block → Block) (dir : Direction) (fb : Block) {c : List Byte}
    (h : c.length = 16) :
    fedBack dir (blockBytes (chunkUnit enc dir fb (blockOfBytes c)).2) c
      = blockBytes (chunkUnit enc dir fb (blockOfBytes c)).1 := by
  cases dir
  · rfl
  · exact (blockBytes_blockOfBytes h).symm

theorem fedBack_append {α : Type} (dir : Direction) (o o' x x' : List α) :
    fedBack dir (o ++ o') (x ++ x') = fedBack dir o x ++ fedBack dir o' x' := by
  cases dir <;> rfl

/-- A CFB128 pass shifts in the ciphertext of its full chunks (R122); a partial chunk shifts in nothing (R124). -/
theorem cfb128_fb_eq_foldl (enc : Block → Block) (dir : Direction) (fb : Block) (cur : BitVec 3)
    (xs : List Byte) :
    (cfb128 enc dir fb cur xs).fb =
      ((fedBack dir (cfb128 enc dir fb cur xs).out xs).take (16 * (xs.length / 16))).foldl shiftInByte fb := by
  generalize hn : xs.length / 16 = n
  induction n generalizing xs fb with
  | zero =>
    rw [cfb128_short _ _ _ _ (by omega)]
    rfl
  | succ n ih =>
    have hl : 16 ≤ xs.length := by omega
    have hc : (xs.take 16).length = 16 := by rw [List.length_take]; omega
    rw [cfb128_long _ _ _ _ hl]
    generalize hfb : (chunkUnit enc dir fb (blockOfBytes (xs.take 16))).1 = fb'
    have hchunk := fedBack_blockBytes_chunkUnit enc dir fb hc
    rw [hfb] at hchunk
    have hfed (out : List Byte) :
        fedBack dir (blockBytes (chunkUnit enc dir fb (blockOfBytes (xs.take 16))).2 ++ out) xs
          = blockBytes fb' ++ fedBack dir out (xs.drop 16) := by
      rw [← hchunk, ← fedBack_append, List.take_append_drop]
    have hlen : 16 * (n + 1) = (blockBytes fb').length + 16 * n := by rw [length_blockBytes]; omega
    rw [hfed, hlen, List.take_length_add_append, List.foldl_append,
      foldl_shiftInByte_of_length (length_blockBytes fb'), blockOfBytes_blockBytes]
    exact ih fb' (xs.drop 16) (by rw [List.length_drop]; omega)

/-- The bytes a pass feeds back: the ciphertext of its whole units (R22, R106). -/
theorem cfb_fb_eq_foldl (w : Width) (enc : Block → Block) (dir : Direction) (fb : Block) (cur : BitVec 3)
    (xs : List Byte) :
    (cfb w enc dir fb cur xs).fb =
      ((fedBack dir (cfb w enc dir fb cur xs).out xs).take (wholeUnitBytes w xs.length)).foldl shiftInByte fb := by
  have hall : (fedBack dir (cfb w enc dir fb cur xs).out xs).take xs.length
      = fedBack dir (cfb w enc dir fb cur xs).out xs :=
    List.take_of_length_le (length_fedBack dir (length_cfb_out ..)).le
  cases w with
  | w128 => exact cfb128_fb_eq_foldl enc dir fb cur xs
  | w8 => exact (cfb8_fb_eq_foldl enc dir fb cur xs).trans (congrArg _ hall.symm)
  | w1 => exact (cfb1_fb_eq_foldl enc dir fb cur xs).trans (congrArg _ hall.symm)

/-! ### The register and the stream -/

/-- Bytes shifted into the register are bytes added to the stream (R22). -/
theorem blockBytes_foldl_eq_drop_append {fb : Block} {stream : List Byte} (hl : 16 ≤ stream.length)
    (hfb : blockBytes fb = stream.drop (stream.length - 16)) (bs : List Byte) :
    blockBytes (bs.foldl shiftInByte fb) = (stream ++ bs).drop ((stream ++ bs).length - 16) := by
  rw [blockBytes_foldl_shiftInByte, hfb, ← List.drop_append_of_le_length (by omega), List.drop_drop,
    List.length_append, Nat.sub_add_comm hl]

/-- `SELECT` answers and writes no register (R173). -/
theorem execSelect_holdsStream {ksb : BitVec 12} {fw : BitVec 8} {stream : List Byte} {s t : State}
    (hs : s.holdsStream stream) (e : execSelect ksb fw s = .next t) :
    t.holdsStream (streamAfter stream (.select ksb fw) s t) := by
  rcases execSelect_cases ksb fw s with ⟨_, e'⟩ | ⟨_, _, e'⟩ <;>
    cases next_unique e e' <;> exact hs

/-- Where the selector answers and the IV is a block, the operands satisfy R187. -/
theorem initSucceeds_of_select {s : State} {fw : BitVec 8} {ksref : KsRef} {iv : List Byte} {h : Handle}
    (hsel : select s.HWREG (keySlot s.KS ksref).ksb fw.toNat = some h) (hl : iv.length = 16) :
    s.initSucceeds fw ksref iv := by
  obtain ⟨hk, hw, _⟩ := select_eq_some.1 hsel
  refine ⟨?_, ?_, hl⟩
  · rw [hk]; cases h.kc <;> simp [keySizeBits]
  · rw [hw]; cases h.wc <;> simp [widthBits]

/-- A successful `INIT` puts the IV into the register (R190), and a failed one keeps the stream with it (R194). -/
theorem execInit_holdsStream {dir : Direction} {fw : BitVec 8} {ksref : KsRef} {iv stream : List Byte} {s t : State}
    (hs : s.holdsStream stream) (e : execInit dir fw ksref iv s = .next t) :
    t.holdsStream (streamAfter stream (.init dir fw ksref iv) s t) := by
  by_cases hok : s.initSucceeds fw ksref iv
  · obtain ⟨h, _, hl, e'⟩ := execInit_succeeds dir hok
    cases next_unique e e'
    rw [streamAfter, if_pos hok]
    exact fun _ => ⟨hl.ge, by simp [blockBytes_blockOfBytes hl, hl]⟩
  · rw [streamAfter, if_neg hok]
    rcases execInit_cases dir fw ksref iv s with
      ⟨_, e'⟩ | ⟨_, _, e'⟩ | ⟨_, _, _, e'⟩ | ⟨h, hsel, hl, _⟩
    · cases next_unique e e'; exact hs
    · cases next_unique e e'; exact hs
    · cases next_unique e e'; exact hs
    · exact absurd (initSucceeds_of_select hsel hl) hok

/-- An accepted `PROCESS` shifts into the register the ciphertext it adds to the stream (R22, R106); a refused one
keeps both (R101). -/
theorem execProcess_holdsStream {input stream : List Byte} {s t : State} (hs : s.holdsStream stream)
    (e : execProcess input s = .next t) : t.holdsStream (streamAfter stream (.process input) s t) := by
  by_cases ha : s.accepting
  · have hne : s.CTL.LS ≠ .uninit := by rcases ha with h | h <;> simp [h]
    obtain ⟨hl, hfb⟩ := hs hne
    obtain ⟨t', e', hFB, _, _, _, _, _, _, hr⟩ := execProcess_accepting input ha
    cases next_unique e e'
    have hout : t.lastOutput = (contextPass Config.E input s).out := by simp [State.lastOutput, hr]
    rw [streamAfter, if_pos ha, hout]
    refine fun _ => ⟨by rw [List.length_append]; omega, ?_⟩
    rw [hFB, contextPass, cfb_fb_eq_foldl]
    exact blockBytes_foldl_eq_drop_append hl hfb _
  · rw [streamAfter, if_neg ha]
    rcases execProcess_cases input s with ⟨_, e'⟩ | ⟨_, e'⟩ | ⟨h, _⟩ | ⟨h, _⟩
    · cases next_unique e e'; exact hs
    · cases next_unique e e'; exact hs
    · exact absurd h ha
    · exact absurd h ha

/-- Settles O37, command by command. -/
theorem feedbackRegisterHoldsTheCiphertextStream : Obligations.FeedbackRegisterHoldsTheCiphertextStream := by
  intro stream i s t hs e
  cases i with
  | select ksb fw => exact execSelect_holdsStream hs e
  | init dir fw ksref iv => exact execInit_holdsStream hs e
  | process input => exact execProcess_holdsStream hs e

/-! ### The context invariant -/

/-- In `Uninit` there is no context for the invariant to speak of. -/
theorem contextInv_of_uninit {s : State} (h : s.CTL.LS = .uninit) : s.contextInv := fun hne => absurd h hne

/-- A new context takes its key size from the schedule it borrows and its variant from the dispatch table (R188,
R189), with cursor 0. -/
theorem beginContext_contextInv {s : State} {h : Handle} {dir : Direction} {fw : BitVec 8} {ksref : KsRef}
    (iv : List Byte) (hs : select s.HWREG (keySlot s.KS ksref).ksb fw.toNat = some h) :
    (beginContext h dir ksref iv s).contextInv := by
  obtain ⟨hk, _, hv⟩ := select_eq_some.1 hs
  exact fun _ => ⟨rfl, hk, hv, nofun⟩

/-- A pass keeps the cursor (R30) and everything the invariant compares with the constants, and only a CFB128 pass
exhausts the context (R108). -/
theorem storePass_contextInv {s : State} (E : RoundKeys → Block → Block) (input : List Byte) (ha : s.accepting)
    (hi : s.contextInv) : (storePass (contextPass E input s) s).contextInv := by
  have hne : s.CTL.LS ≠ .uninit := by rcases ha with h | h <;> simp [h]
  obtain ⟨hcur, hk, hv, _⟩ := hi hne
  refine fun _ => ⟨(cfb_cur ..).trans hcur, hk, hv, fun hx => ?_⟩
  have hls : (if s.CTL.WC = .w128 ∧ input.length % 16 ≠ 0 then Lifecycle.exhausted else .inUse) = .exhausted :=
    (cfb_ls ..).symm.trans hx
  by_contra hw
  rw [if_neg fun h => hw h.1] at hls
  cases hls

/-- Every command keeps the context invariant. -/
theorem exec_keeps_contextInv {i : Instr} {s t : State} (hi : s.contextInv) (e : exec i s = .next t) :
    t.contextInv := by
  rcases exec_next_cases e with ⟨_, rfl⟩ | ⟨_, _, _, iv, _, _, hs, _, rfl⟩ | ⟨_, _, ha, _, rfl⟩
  · exact hi
  · exact beginContext_contextInv iv hs
  · exact storePass_contextInv Config.E _ ha hi

/-- Settles O38: a reset leaves no context. -/
theorem resetMeetsTheContextInvariant : Obligations.ResetMeetsTheContextInvariant :=
  contextInv_of_uninit rfl

/-- Settles O39: a reset leaves no context, an answer changes no register, and every command keeps the invariant. -/
theorem everyStepKeepsTheContextInvariant : Obligations.EveryStepKeepsTheContextInvariant := by
  intro s t hi e
  rcases step_next_cases e with rfl | ⟨_, rfl⟩ | ⟨_, _, rfl⟩ | ⟨rest, _, e⟩
  · exact hi
  · exact contextInv_of_uninit rfl
  · exact hi
  · exact exec_keeps_contextInv (s := { s with events := rest }) hi e

/-! ### Engines in `Uninit` -/

/-- Settles O2: `SELECT` and `INIT` read nothing but the constants of the run, the context a successful `INIT` begins
holds nothing of the old registers, and `PROCESS` is refused. -/
theorem uninitRegistersCannotBeRead : Obligations.UninitRegistersCannotBeRead := by
  intro i s s' hu hu' hKS hT
  cases i with
  | select ksb fw =>
    obtain ⟨_, e⟩ := execSelect_reads_table ksb fw s.HWREG
    exact ⟨_, _, _, e s rfl, e s' hT.symm, rfl, rfl, .inl ⟨hu, hu'⟩⟩
  | init dir fw ksref iv =>
    rcases execInit_reads_runConstants dir fw ksref iv s.KS s.HWREG with ⟨_, e⟩ | ⟨_, h, e⟩
    · exact ⟨_, _, _, e s rfl rfl, e s' hKS.symm hT.symm, rfl, rfl, .inl ⟨hu, hu'⟩⟩
    · exact ⟨_, _, _, e s rfl rfl, e s' hKS.symm hT.symm, rfl, rfl, .inr ⟨rfl, rfl, rfl, hKS, hT⟩⟩
  | process input =>
    exact ⟨_, _, _, execProcess_uninit input hu, execProcess_uninit input hu', rfl, rfl, .inl ⟨hu, hu'⟩⟩

/-! ### Equal engines -/

/-- `PROCESS` on equal engines that accept it: the same pass is stored and returned. -/
theorem execProcess_sameEngine_of_accepting {s s' : State} (input : List Byte) (h : s.sameEngine s')
    (ha : s.accepting) :
    ∃ t t' r, execProcess input s = .next t ∧ execProcess input s' = .next t'
      ∧ t.sameEngine t' ∧ t.responses = s.responses ++ [r] ∧ t'.responses = s'.responses ++ [r] := by
  have hpass := contextPass_congr h Config.E input
  obtain ⟨_, hCTL, hKSREF, hKS, hT⟩ := h
  have ha' : s'.accepting := by rwa [State.accepting, ← hCTL]
  obtain ⟨t, e, tFB, tCTL, tKSREF, tKS, tT, _, _, tr⟩ := execProcess_accepting input ha
  obtain ⟨t', e', tFB', tCTL', tKSREF', tKS', tT', _, _, tr'⟩ := execProcess_accepting input ha'
  rw [← hpass] at tFB' tr' tCTL'
  rw [← hCTL] at tCTL'
  exact ⟨t, t', _, e, e', ⟨tFB.trans tFB'.symm, tCTL.trans tCTL'.symm, tKSREF.trans (hKSREF.trans tKSREF'.symm),
    tKS.trans (hKS.trans tKS'.symm), tT.trans (hT.trans tT'.symm)⟩, tr, tr'⟩

/-- One command on equal engines: the same response, and equal engines after it. -/
theorem exec_sameEngine {s s' : State} (i : Instr) (h : s.sameEngine s') :
    ∃ t t' r, exec i s = .next t ∧ exec i s' = .next t'
      ∧ t.sameEngine t' ∧ t.responses = s.responses ++ [r] ∧ t'.responses = s'.responses ++ [r] := by
  obtain ⟨_, hCTL, _, hKS, hT⟩ := id h
  cases i with
  | select ksb fw =>
    obtain ⟨_, e⟩ := execSelect_reads_table ksb fw s.HWREG
    exact ⟨_, _, _, e s rfl, e s' hT.symm, h, rfl, rfl⟩
  | init dir fw ksref iv =>
    rcases execInit_reads_runConstants dir fw ksref iv s.KS s.HWREG with ⟨_, e⟩ | ⟨_, _, e⟩
    · exact ⟨_, _, _, e s rfl rfl, e s' hKS.symm hT.symm, h, rfl, rfl⟩
    · exact ⟨_, _, _, e s rfl rfl, e s' hKS.symm hT.symm, ⟨rfl, rfl, rfl, hKS, hT⟩, rfl, rfl⟩
  | process input =>
    cases hls : s.CTL.LS with
    | uninit =>
      exact ⟨_, _, _, execProcess_uninit input hls, execProcess_uninit input (hCTL ▸ hls), h, rfl, rfl⟩
    | exhausted =>
      exact ⟨_, _, _, execProcess_exhausted input hls, execProcess_exhausted input (hCTL ▸ hls), h, rfl, rfl⟩
    | initialized => exact execProcess_sameEngine_of_accepting input h (.inl hls)
    | inUse => exact execProcess_sameEngine_of_accepting input h (.inr hls)

@[simp] theorem execAll_nil (s : State) : execAll [] s = .next s := rfl

/-- A sequence runs on from the state its first command leaves. -/
theorem execAll_cons_of_next {i : Instr} {s t : State} (is : List Instr) (e : exec i s = .next t) :
    execAll (i :: is) s = execAll is t := by
  rw [execAll, e]

/-- Settles O36, by induction on the commands: each keeps the engines equal. -/
theorem equalEnginesBehaveEqually : Obligations.EqualEnginesBehaveEqually := by
  intro s s' is h
  induction is generalizing s s' with
  | nil => exact ⟨s, s', [], execAll_nil s, execAll_nil s', h, (List.append_nil _).symm, (List.append_nil _).symm⟩
  | cons i is ih =>
    obtain ⟨u, u', r, e, e', hu, hr, hr'⟩ := exec_sameEngine i h
    obtain ⟨t, t', rs, f, f', ht, hrs, hrs'⟩ := ih u u' hu
    refine ⟨t, t', r :: rs, (execAll_cons_of_next is e).trans f, (execAll_cons_of_next is e').trans f', ht, ?_, ?_⟩
    · rw [hrs, hr, List.append_assoc, List.singleton_append]
    · rw [hrs', hr', List.append_assoc, List.singleton_append]

/-! ### The constants of the run -/

/-- No command writes the key-schedule store or the dispatch table (R34, R36). -/
theorem exec_keeps_runConstants {i : Instr} {s t : State} (e : exec i s = .next t) :
    t.KS = s.KS ∧ t.HWREG = s.HWREG := by
  rcases exec_next_cases e with ⟨_, rfl⟩ | ⟨_, _, _, _, _, _, _, _, rfl⟩ | ⟨_, _, _, _, rfl⟩ <;>
    exact ⟨rfl, rfl⟩

/-- Settles O9: waiting, a reset and an answer write neither constant, and no command does. -/
theorem runConstantsNeverChange : Obligations.RunConstantsNeverChange := by
  intro s t e
  rcases step_next_cases e with rfl | ⟨_, rfl⟩ | ⟨_, _, rfl⟩ | ⟨rest, _, e⟩
  · exact ⟨rfl, rfl⟩
  · exact ⟨rfl, rfl⟩
  · exact ⟨rfl, rfl⟩
  · exact exec_keeps_runConstants (s := { s with events := rest }) e

/-! ### The layout of `CTL` (R26) -/

/-- Each field of `CTL` stands at its place in the word. -/
theorem ctlWord_fields (c : Ctl) :
    (ctlWord c).extractLsb' 0 2 = lifecycleCode c.LS
      ∧ (ctlWord c).extractLsb' 2 1 = directionCode c.DIR
      ∧ (ctlWord c).extractLsb' 3 2 = widthCode c.WC
      ∧ (ctlWord c).extractLsb' 5 2 = keySizeCode c.KC
      ∧ (ctlWord c).extractLsb' 7 1 = variantCode c.VAR
      ∧ (ctlWord c).extractLsb' 8 3 = c.CUR := by
  refine ⟨?_, ?_, ?_, ?_, ?_, ?_⟩ <;> refine BitVec.eq_of_getLsbD_eq fun k hk => ?_ <;>
    interval_cases k <;> simp [ctlWord, BitVec.getLsbD_of_ge, -BitVec.getLsbD_eq_getElem]

theorem lifecycleCode_injective : Function.Injective lifecycleCode := by
  intro a b; cases a <;> cases b <;> decide

theorem directionCode_injective : Function.Injective directionCode := by
  intro a b; cases a <;> cases b <;> decide

theorem widthCode_injective : Function.Injective widthCode := by
  intro a b; cases a <;> cases b <;> decide

theorem keySizeCode_injective : Function.Injective keySizeCode := by
  intro a b; cases a <;> cases b <;> decide

theorem variantCode_injective : Function.Injective variantCode := by
  intro a b; cases a <;> cases b <;> decide

/-- The word determines the register: every field is read back, and no two values of a field share a code. -/
theorem ctlWord_injective : Function.Injective ctlWord := by
  intro c d h
  obtain ⟨ls, dir, wc, kc, var, cur⟩ := ctlWord_fields c
  obtain ⟨ls', dir', wc', kc', var', cur'⟩ := ctlWord_fields d
  rw [h] at ls dir wc kc var cur
  have hLS := lifecycleCode_injective (ls.symm.trans ls')
  have hDIR := directionCode_injective (dir.symm.trans dir')
  have hWC := widthCode_injective (wc.symm.trans wc')
  have hKC := keySizeCode_injective (kc.symm.trans kc')
  have hVAR := variantCode_injective (var.symm.trans var')
  have hCUR := cur.symm.trans cur'
  cases c; cases d
  exact Ctl.mk.injEq .. |>.mpr ⟨hLS, hDIR, hWC, hKC, hVAR, hCUR⟩

/-- Settles O14: each field's place, its codes value by value, and injectivity. -/
theorem ctlLayout : Obligations.CtlLayout := by
  refine ⟨fun c => ?_, fun c d h => ctlWord_injective h⟩
  obtain ⟨ls, dir, wc, kc, var, cur⟩ := ctlWord_fields c
  refine ⟨ls.trans ?_, dir.trans ?_, wc.trans ?_, kc.trans ?_, var.trans ?_, cur⟩
  · cases c.LS <;> rfl
  · cases c.DIR <;> rfl
  · cases c.WC <;> rfl
  · cases c.KC <;> rfl
  · cases c.VAR <;> rfl

end Sys2Proof.Machine
end

section
/-! PROOFS. The statements about what goes in and out of the engine: the output of `PROCESS` byte by byte (R51), and
the command a step takes from the port (R58, R71, R76). -/

namespace Sys2Proof.Machine

/-! ### The first bytes of an output -/

/-- The first results of a pass are those of the pass over the first elements. -/
theorem take_passUnits {σ α β : Type} (unit : σ → α → σ × β) (r : σ) (xs : List α) (k : Nat) :
    (passUnits unit r xs).2.take k = (passUnits unit r (xs.take k)).2 := by
  induction xs generalizing r k with
  | nil => simp
  | cons x xs ih =>
    cases k with
    | zero => rfl
    | succ k => simp [ih]

/-- Masking works byte by byte (R105, R121). -/
theorem take_maskPartial (ks : Block) (xs : List Byte) (k : Nat) :
    (maskPartial ks xs).take k = maskPartial ks (xs.take k) := by
  apply List.ext_getElem
  · simp only [maskPartial, List.length_take, List.length_zipWith]; omega
  · intro i _ _
    simp [maskPartial]

/-- The first bytes of a masked whole chunk are the first bytes of the chunk, masked as a partial one (R121). -/
theorem take_blockBytes_chunkUnit (enc : Block → Block) (dir : Direction) (fb : Block) {c : List Byte}
    (h : c.length = 16) (k : Nat) :
    (blockBytes (chunkUnit enc dir fb (blockOfBytes c)).2).take k = maskPartial (enc fb) (c.take k) := by
  rw [chunkUnit, ← maskPartial_full _ h, take_maskPartial]

/-- The output of CFB128 on 16 bytes or more: the first chunk's, and then that of the rest (R121). -/
theorem cfb128_out_long (enc : Block → Block) (dir : Direction) (fb : Block) (cur : BitVec 3) {xs : List Byte}
    (h : 16 ≤ xs.length) :
    (cfb128 enc dir fb cur xs).out =
      blockBytes (chunkUnit enc dir fb (blockOfBytes (xs.take 16))).2
        ++ (cfb128 enc dir (chunkUnit enc dir fb (blockOfBytes (xs.take 16))).1 cur (xs.drop 16)).out := by
  rw [cfb128_long _ _ _ _ h]

/-- The first `k` output bytes of CFB128, chunk by chunk: a cut inside a chunk leaves a partial chunk, masked with the
same keystream block. -/
theorem take_cfb128_out (enc : Block → Block) (dir : Direction) (fb : Block) (cur : BitVec 3) (xs : List Byte)
    (k : Nat) : (cfb128 enc dir fb cur xs).out.take k = (cfb128 enc dir fb cur (xs.take k)).out := by
  induction k using Nat.strong_induction_on generalizing fb xs with
  | _ k ih =>
    rcases Nat.lt_or_ge xs.length 16 with hs | hs
    · rw [cfb128_short _ _ _ _ hs, cfb128_short _ _ _ _ (by rw [List.length_take]; omega)]
      exact take_maskPartial (enc fb) xs k
    · have hl : (xs.take k).length = min k xs.length := List.length_take
      rw [cfb128_out_long _ _ _ _ hs]
      rcases Nat.lt_or_ge k 16 with hk | hk
      · have hc : (xs.take 16).length = 16 := by rw [List.length_take]; omega
        rw [cfb128_short _ _ _ _ (xs := xs.take k) (by omega),
          List.take_append_of_le_length (by rw [length_blockBytes]; omega), take_blockBytes_chunkUnit _ _ _ hc,
          List.take_take, Nat.min_eq_left hk.le]
      · rw [cfb128_out_long _ _ _ _ (xs := xs.take k) (by omega), List.take_take, Nat.min_eq_left hk,
          List.drop_take, ← ih (k - 16) (by omega), List.take_append, length_blockBytes,
          List.take_of_length_le (by rw [length_blockBytes]; omega)]

/-- The first bytes of a pass's output are the output of the pass over the first bytes (R51). -/
theorem take_cfb_out (w : Width) (enc : Block → Block) (dir : Direction) (fb : Block) (cur : BitVec 3)
    (xs : List Byte) (k : Nat) : (cfb w enc dir fb cur xs).out.take k = (cfb w enc dir fb cur (xs.take k)).out := by
  cases w with
  | w128 => exact take_cfb128_out enc dir fb cur xs k
  | w8 => exact take_passUnits (byteUnit enc dir) fb xs k
  | w1 => exact take_passUnits (bitsUnit enc dir) (fb, cur) xs k

/-- The output of an accepted `PROCESS` is that of the pass over the context's fields (R102). -/
theorem execProcess_lastOutput {s : State} (input : List Byte) (h : s.accepting) :
    ∃ t, exec (.process input) s = .next t ∧ t.lastOutput = (contextPass Config.E input s).out := by
  obtain ⟨t, e, _, _, _, _, _, _, _, hr⟩ := execProcess_accepting input h
  exact ⟨t, e, by simp [State.lastOutput, hr]⟩

/-- Settles O27: the first `k` output bytes are the output for the first `k` input bytes. -/
theorem outputNeverDependsOnLaterInput : Obligations.OutputNeverDependsOnLaterInput := by
  intro s input input' k ha hk
  obtain ⟨t, e, ho⟩ := execProcess_lastOutput input ha
  obtain ⟨t', e', ho'⟩ := execProcess_lastOutput input' ha
  refine ⟨t, t', e, e', ho ▸ length_cfb_out .., ho' ▸ length_cfb_out .., ?_⟩
  rw [ho, ho', contextPass, contextPass, take_cfb_out, take_cfb_out, hk]

/-! ### The command at the port -/

/-- The payload length an `INIT` header declares (R71). -/
theorem plen_of_opcode_init {h : Word} (ho : opcodeOf h = 2#4) : plen h = (h.extractLsb' 8 8).toNat := by
  simp [plen, ho]

/-- The payload length a `PROCESS` header declares (R71). -/
theorem plen_of_opcode_process {h : Word} (ho : opcodeOf h = 3#4) : plen h = (h.extractLsb' 0 24).toNat := by
  simp [plen, ho]

/-- What a framed command decodes to has an encoding: its payload has the length a header field declares. -/
theorem wellFormed_of_decode {c : Command} {i : Instr} (hf : framed c = true) (hd : decode c = .ok i) :
    i.wellFormed = true := by
  have hlen : c.payload.length = plen c.header := of_decide_eq_true hf
  cases i with
  | select ksb fw => rfl
  | init dir fw ksref iv =>
    obtain ⟨ho, _, _, _, _, rfl⟩ := decode_eq_init.1 hd
    rw [plen_of_opcode_init ho] at hlen
    have hlt := (c.header.extractLsb' 8 8).isLt
    exact decide_eq_true (by rw [maxIvLen]; omega)
  | process input =>
    obtain ⟨ho, _, rfl⟩ := decode_eq_process.1 hd
    rw [plen_of_opcode_process ho] at hlen
    have hlt := (c.header.extractLsb' 0 24).isLt
    exact decide_eq_true (by rw [maxLen]; omega)

/-- A step on a framed command with a legal header (R58, R76). -/
theorem step_of_decode {s : State} {c : Command} {rest : List Event} {i : Instr}
    (he : s.events = .command c :: rest) (hf : framed c = true) (hd : decode c = .ok i) :
    step s = exec i { s with events := rest } := by
  simp only [step, he, hf, hd, if_true]

/-- Settles O4: the decoded instruction is well formed, and the step executes it. -/
theorem stepRunsTheDecodedCommand : Obligations.StepRunsTheDecodedCommand :=
  fun _ _ _ _ he hf hd => ⟨wellFormed_of_decode hf hd, step_of_decode he hf hd⟩

end Sys2Proof.Machine
end

section
/-! PROOFS. The statements about the encoding: decoding undoes encoding and encoding undoes decoding (R72 to R76), the
match-and-mask rows of R76, illegal headers (R77) and ill-framed pairs (R71). -/

namespace Sys2Proof

open Laws.EncodingFramed (opcodeOf_selectHeader opcodeOf_initHeader opcodeOf_processHeader ivlen_initHeader
  len_processHeader)

/-! ### The fields of an encoded header, beside those of `Laws.EncodingFramed` -/

/-- The fields of a `SELECT` header (R72). -/
theorem selectHeader_fields (ksb : BitVec 12) (fw : BitVec 8) :
    (selectHeader ksb fw).extractLsb' 0 8 = 0#8
      ∧ (selectHeader ksb fw).extractLsb' 16 12 = ksb
      ∧ (selectHeader ksb fw).extractLsb' 8 8 = fw := by
  refine ⟨?_, ?_, ?_⟩ <;> refine BitVec.eq_of_getLsbD_eq fun k hk => ?_ <;>
    interval_cases k <;> simp [selectHeader, BitVec.getLsbD_of_ge, -BitVec.getLsbD_eq_getElem]

/-- The fields of an `INIT` header (R73). -/
theorem initHeader_fields (dir : Direction) (fw n : BitVec 8) (ksref : KsRef) :
    (initHeader dir fw n ksref).extractLsb' 24 3 = 0#3
      ∧ (initHeader dir fw n ksref).extractLsb' 27 1 = bitOfDirection dir
      ∧ (initHeader dir fw n ksref).extractLsb' 16 8 = fw
      ∧ (initHeader dir fw n ksref).extractLsb' 0 8 = ksref := by
  refine ⟨?_, ?_, ?_, ?_⟩ <;> refine BitVec.eq_of_getLsbD_eq fun k hk => ?_ <;>
    interval_cases k <;> simp [initHeader, BitVec.getLsbD_of_ge, -BitVec.getLsbD_eq_getElem]

/-- The reserved bits of a `PROCESS` header (R74). -/
theorem reserved_processHeader (n : BitVec 24) : (processHeader n).extractLsb' 24 4 = 0#4 := by
  refine BitVec.eq_of_getLsbD_eq fun k hk => ?_
  interval_cases k <;> simp [processHeader, BitVec.getLsbD_of_ge, -BitVec.getLsbD_eq_getElem]

/-! ### The direction bit (R73, D29) -/

theorem extractLsb'_one_eq_ofBool (h : Word) (k : Nat) : h.extractLsb' k 1 = BitVec.ofBool (h.getLsbD k) := by
  rw [extractLsb'_eq_iff]
  intro j hj
  interval_cases j
  simp [-BitVec.getLsbD_eq_getElem]

@[simp] theorem bitOfDirection_directionOfBit (b : Bool) : bitOfDirection (directionOfBit b) = BitVec.ofBool b := by
  cases b <;> rfl

/-- A bit names the direction that it encodes. -/
theorem directionOfBit_eq_iff {b : Bool} {dir : Direction} :
    directionOfBit b = dir ↔ BitVec.ofBool b = bitOfDirection dir := by
  cases b <;> cases dir <;> decide

/-- A bit names a direction exactly when it is set for `decrypt` and for nothing else. -/
theorem directionOfBit_eq_iff_decrypt {b : Bool} {dir : Direction} :
    directionOfBit b = dir ↔ (dir = .decrypt ↔ b = true) := by
  cases b <;> cases dir <;> decide

/-! ### Decoding undoes encoding -/

/-- Decoding an encoding, with every operand at every value, the payload's length included. -/
theorem decode_encode (i : Instr) : decode (encode i) = .ok i := by
  cases i with
  | select ksb fw => exact decode_eq_select.2 ⟨opcodeOf_selectHeader ksb fw, selectHeader_fields ksb fw⟩
  | init dir fw ksref iv =>
    obtain ⟨hres, hdir, hfw, hksref⟩ := initHeader_fields dir fw (BitVec.ofNat 8 iv.length) ksref
    rw [extractLsb'_one_eq_ofBool, ← directionOfBit_eq_iff] at hdir
    exact decode_eq_init.2 ⟨opcodeOf_initHeader .., hres, hdir, hfw, hksref, rfl⟩
  | process input => exact decode_eq_process.2 ⟨opcodeOf_processHeader _, reserved_processHeader _, rfl⟩

/-- Encoding a well-formed instruction gives a framed pair (R71). -/
theorem framed_encode {i : Instr} (h : i.wellFormed = true) : framed (encode i) = true := by
  cases i with
  | select ksb fw => exact Laws.EncodingFramed.select ksb fw h
  | init dir fw ksref iv => exact Laws.EncodingFramed.init dir fw ksref iv h
  | process input => exact Laws.EncodingFramed.process input h

/-- Settles O10: every field of an encoded header is read back, and the payload has the length declared. -/
theorem decodeOfEncodeIsTheInstruction : Obligations.DecodeOfEncodeIsTheInstruction :=
  fun i h => ⟨framed_encode h, decode_encode i⟩

/-! ### Encoding undoes decoding -/

/-- The fields of format S determine the header (R72). -/
theorem eq_of_selectFields {h h' : Word} (hopc : opcodeOf h = opcodeOf h')
    (hksb : h.extractLsb' 16 12 = h'.extractLsb' 16 12) (hfw : h.extractLsb' 8 8 = h'.extractLsb' 8 8)
    (hres : h.extractLsb' 0 8 = h'.extractLsb' 0 8) : h = h' := by
  have fields (x : Word) :
      opcodeOf x ++ x.extractLsb' 16 12 ++ x.extractLsb' 8 8 ++ x.extractLsb' 0 8 = x := by
    simp only [opcodeOf, BitVec.extractLsb'_append_extractLsb'_eq_extractLsb', BitVec.extractLsb'_eq_self]
  rw [← fields h, hopc, hksb, hfw, hres, fields]

/-- The fields of format I determine the header (R73). -/
theorem eq_of_initFields {h h' : Word} (hopc : opcodeOf h = opcodeOf h')
    (hdir : h.extractLsb' 27 1 = h'.extractLsb' 27 1) (hres : h.extractLsb' 24 3 = h'.extractLsb' 24 3)
    (hfw : h.extractLsb' 16 8 = h'.extractLsb' 16 8) (hlen : h.extractLsb' 8 8 = h'.extractLsb' 8 8)
    (hksref : h.extractLsb' 0 8 = h'.extractLsb' 0 8) : h = h' := by
  have fields (x : Word) :
      opcodeOf x ++ x.extractLsb' 27 1 ++ x.extractLsb' 24 3 ++ x.extractLsb' 16 8 ++ x.extractLsb' 8 8
        ++ x.extractLsb' 0 8 = x := by
    simp only [opcodeOf, BitVec.extractLsb'_append_extractLsb'_eq_extractLsb', BitVec.extractLsb'_eq_self]
  rw [← fields h, hopc, hdir, hres, hfw, hlen, hksref, fields]

/-- The fields of format P determine the header (R74). -/
theorem eq_of_processFields {h h' : Word} (hopc : opcodeOf h = opcodeOf h')
    (hres : h.extractLsb' 24 4 = h'.extractLsb' 24 4) (hlen : h.extractLsb' 0 24 = h'.extractLsb' 0 24) : h = h' := by
  have fields (x : Word) : opcodeOf x ++ x.extractLsb' 24 4 ++ x.extractLsb' 0 24 = x := by
    simp only [opcodeOf, BitVec.extractLsb'_append_extractLsb'_eq_extractLsb', BitVec.extractLsb'_eq_self]
  rw [← fields h, hopc, hres, hlen, fields]

/-- A payload as long as a length field declares gives that field back. -/
theorem ofNat_length_of_eq_toNat {n : Nat} {v : BitVec n} {bs : List Byte} (h : bs.length = v.toNat) :
    BitVec.ofNat n bs.length = v := by
  rw [h, BitVec.ofNat_toNat, BitVec.setWidth_eq]

/-- Encoding what a framed command decodes to: the header has the fields the decoder read, and its length field is
the payload's length. -/
theorem encode_of_decode {c : Command} {i : Instr} (hf : framed c = true) (hd : decode c = .ok i) : encode i = c := by
  have hlen : c.payload.length = plen c.header := of_decide_eq_true hf
  obtain ⟨h, payload⟩ := c
  cases i with
  | select ksb fw =>
    obtain ⟨ho, hres, rfl, rfl⟩ := decode_eq_select.1 hd
    have hp : payload = [] := List.length_eq_zero_iff.1 (hlen.trans (by simp [plen, ho]))
    obtain ⟨hres', hksb', hfw'⟩ := selectHeader_fields (h.extractLsb' 16 12) (h.extractLsb' 8 8)
    rw [hp, encode, eq_of_selectFields ((opcodeOf_selectHeader ..).trans ho.symm) hksb' hfw' (hres'.trans hres.symm)]
  | init dir fw ksref iv =>
    obtain ⟨ho, hres, rfl, rfl, rfl, rfl⟩ := decode_eq_init.1 hd
    rw [Machine.plen_of_opcode_init ho] at hlen
    rw [encode, ofNat_length_of_eq_toNat hlen]
    obtain ⟨hres', hdir', hfw', hksref'⟩ := initHeader_fields (directionOfBit (h.getLsbD 27)) (h.extractLsb' 16 8)
      (h.extractLsb' 8 8) (h.extractLsb' 0 8)
    rw [bitOfDirection_directionOfBit, ← extractLsb'_one_eq_ofBool] at hdir'
    rw [eq_of_initFields ((opcodeOf_initHeader ..).trans ho.symm) hdir' (hres'.trans hres.symm) hfw'
      (ivlen_initHeader ..) hksref']
  | process input =>
    obtain ⟨ho, hres, rfl⟩ := decode_eq_process.1 hd
    rw [Machine.plen_of_opcode_process ho] at hlen
    rw [encode, ofNat_length_of_eq_toNat hlen, eq_of_processFields ((opcodeOf_processHeader _).trans ho.symm)
      ((reserved_processHeader _).trans hres.symm) (len_processHeader _)]

/-- Settles O11: what the decoder reads has an encoding, and it is the command read. -/
theorem encodeOfDecodeIsTheCommand : Obligations.EncodeOfDecodeIsTheCommand :=
  fun _ _ hf hd => ⟨Machine.wellFormed_of_decode hf hd, encode_of_decode hf hd⟩

/-! ### Fields by shift and mask -/

/-- Shifting and masking with `n` ones reads the field of `n` bits. -/
theorem ushiftRight_and_allOnes (h : Word) (lo n : Nat) :
    (h >>> lo) &&& (BitVec.allOnes n).setWidth 32 = (h.extractLsb' lo n).setWidth 32 := by
  ext k hk
  simp [← BitVec.getLsbD_eq_getElem, hk, Bool.and_comm]

/-- A value widened to a word is a shifted and masked word exactly when it is the field. -/
theorem setWidth_eq_field_iff {n : Nat} (hn : n ≤ 32) (h : Word) (lo : Nat) (v : BitVec n) :
    v.setWidth 32 = (h >>> lo) &&& (BitVec.allOnes n).setWidth 32 ↔ h.extractLsb' lo n = v := by
  rw [ushiftRight_and_allOnes]
  refine ⟨fun e => ?_, fun e => congrArg _ e.symm⟩
  simpa [BitVec.setWidth_setWidth_of_le, hn] using (congrArg (BitVec.setWidth n) e).symm

/-- The number in a shifted and masked word is the number in the field. -/
theorem toNat_field {n : Nat} (hn : n ≤ 32) (h : Word) (lo : Nat) :
    ((h >>> lo) &&& (BitVec.allOnes n).setWidth 32).toNat = (h.extractLsb' lo n).toNat := by
  rw [ushiftRight_and_allOnes, BitVec.toNat_setWidth_of_le hn]

/-- The `DIR` bit by a mask (R73). -/
theorem and_dirBit_ne_zero_iff (h : Word) : h &&& 0x08000000#32 ≠ 0#32 ↔ h.getLsbD 27 = true := by
  rw [show 0x08000000#32 = BitVec.twoPow 32 27 from rfl, BitVec.and_twoPow]
  cases h.getLsbD 27 <;> decide

/-! ### The rows of R76 -/

/-- A header decodes to a `SELECT` exactly when the row of `SELECT` matches. -/
theorem decode_eq_select_iff_row (c : Command) (ksb : BitVec 12) (fw : BitVec 8) :
    decode c = .ok (.select ksb fw) ↔
      c.header &&& 0xF00000FF#32 = 0x10000000#32
        ∧ ksb.setWidth 32 = (c.header >>> 16) &&& 0xFFF#32 ∧ fw.setWidth 32 = (c.header >>> 8) &&& 0xFF#32 := by
  have hksb := setWidth_eq_field_iff (by decide) c.header 16 ksb
  have hfw := setWidth_eq_field_iff (by decide) c.header 8 fw
  exact decode_eq_select.trans (by rw [selectRow_iff, ← hksb, ← hfw, and_assoc]; rfl)

/-- A header decodes to an `INIT` exactly when the row of `INIT` matches. -/
theorem decode_eq_init_iff_row (c : Command) (dir : Direction) (fw : BitVec 8) (ksref : KsRef) (iv : List Byte) :
    decode c = .ok (.init dir fw ksref iv) ↔
      c.header &&& 0xF7000000#32 = 0x20000000#32
        ∧ (dir = .decrypt ↔ c.header &&& 0x08000000#32 ≠ 0#32)
        ∧ fw.setWidth 32 = (c.header >>> 16) &&& 0xFF#32 ∧ ksref.setWidth 32 = c.header &&& 0xFF#32
        ∧ iv = c.payload := by
  have hfw := setWidth_eq_field_iff (by decide) c.header 16 fw
  have hksref := setWidth_eq_field_iff (by decide) c.header 0 ksref
  rw [BitVec.ushiftRight_zero] at hksref
  refine decode_eq_init.trans ?_
  rw [initRow_iff, and_dirBit_ne_zero_iff, ← directionOfBit_eq_iff_decrypt, ← hfw, ← hksref, eq_comm (a := iv),
    and_assoc]
  rfl

/-- A header decodes to a `PROCESS` exactly when the row of `PROCESS` matches. -/
theorem decode_eq_process_iff_row (c : Command) (input : List Byte) :
    decode c = .ok (.process input) ↔ c.header &&& 0xFF000000#32 = 0x30000000#32 ∧ input = c.payload := by
  rw [decode_eq_process, processRow_iff, and_assoc, eq_comm (a := input)]

/-- Settles O12, row by row. -/
theorem headerDecodesExactlyWhenItsRowMatches : Obligations.HeaderDecodesExactlyWhenItsRowMatches :=
  fun c => ⟨decode_eq_select_iff_row c, decode_eq_init_iff_row c, decode_eq_process_iff_row c⟩

/-- A header that matches no row is rejected (R77). -/
theorem decode_error_of_no_row {c : Command} (hs : c.header &&& 0xF00000FF#32 ≠ 0x10000000#32)
    (hi : c.header &&& 0xF7000000#32 ≠ 0x20000000#32) (hp : c.header &&& 0xFF000000#32 ≠ 0x30000000#32) :
    ∃ why, decode c = .error why := by
  cases hd : decode c with
  | error why => exact ⟨why, rfl⟩
  | ok i =>
    cases i with
    | select ksb fw => exact absurd ((decode_eq_select_iff_row ..).1 hd).1 hs
    | init dir fw ksref iv => exact absurd ((decode_eq_init_iff_row ..).1 hd).1 hi
    | process input => exact absurd ((decode_eq_process_iff_row ..).1 hd).1 hp

/-- Settles O13: each worked header is decoded by evaluation. -/
theorem workedHeadersDecode : Obligations.WorkedHeadersDecode := by
  unfold Obligations.WorkedHeadersDecode
  decide

namespace Machine

/-! ### Illegal headers and ill-framed pairs at the port -/

/-- A step on a framed command with an illegal header (R77). -/
theorem step_of_decode_error {s : State} {c : Command} {rest : List Event} {why : DecodeError}
    (he : s.events = .command c :: rest) (hf : framed c = true) (hd : decode c = .error why) :
    step s = .next (raise (opcodeOf c.header) .illegalCommand { s with events := rest }) := by
  simp only [step, he, hf, hd, if_true, answerIllegal]

/-- Settles O5: the decoder rejects the header, and the word raised is the opcode's echo with code 6. -/
theorem illegalHeaderIsAnsweredAndChangesNothing : Obligations.IllegalHeaderIsAnsweredAndChangesNothing := by
  intro s c rest he hf hs hi hp
  obtain ⟨why, hd⟩ := decode_error_of_no_row hs hi hp
  rw [step_of_decode_error he hf hd, raise_eq_answered, responseWord_illegal, and_opcode]

/-- A step on a pair whose payload has not the declared length (R71). -/
theorem step_of_payload_length_ne {s : State} {c : Command} {rest : List Event} (he : s.events = .command c :: rest)
    (hl : c.payload.length ≠ plen c.header) : step s = .refused .illFramedCommand := by
  have hf : framed c = false := decide_eq_false hl
  simp only [step, he, hf, Bool.false_eq_true, if_false, refuseIllFramed]

/-- Settles O6: `plen` by opcode, and the refusal of any other length. -/
theorem illFramedPairIsRefused : Obligations.IllFramedPairIsRefused := by
  refine ⟨fun h ho => ?_, fun h ho => ?_, fun h h2 h3 => ?_, fun s c rest => step_of_payload_length_ne⟩
  · rw [plen_of_opcode_init ((ushiftRight_eq_iff h 2#4).1 ho)]
    exact (toNat_field (by decide) h 8).symm
  · rw [plen_of_opcode_process ((ushiftRight_eq_iff h 3#4).1 ho), ← toNat_field (by decide), BitVec.ushiftRight_zero]
    rfl
  · have h2' : opcodeOf h ≠ 2#4 := fun e => h2 ((ushiftRight_eq_iff h 2#4).2 e)
    have h3' : opcodeOf h ≠ 3#4 := fun e => h3 ((ushiftRight_eq_iff h 3#4).2 e)
    rw [plen, if_neg h2', if_neg h3']

end Machine

end Sys2Proof
end

section
/-! PROOFS. The statements about one command on a context: where `PROCESS` is refused and what it keeps (R101, R103,
R104, R113), and the lifecycle state after every command (R108, R197). -/

namespace Sys2Proof.Machine

/-! ### Where `PROCESS` is refused, and where it is not -/

/-- A context accepts data in two of the four lifecycle states (R24). -/
theorem not_accepting_iff {s : State} : ¬s.accepting ↔ s.CTL.LS = .uninit ∨ s.CTL.LS = .exhausted := by
  unfold State.accepting
  cases s.CTL.LS <;> decide

/-- A refused `PROCESS` lists no evaluation (R101). -/
theorem processEvaluations_of_not_accepting {s : State} (E : RoundKeys → Block → Block) (input : List Byte)
    (h : ¬s.accepting) : processEvaluations E input s = [] := by
  rcases not_accepting_iff.1 h with h | h <;> simp only [processEvaluations, h]

/-- An accepted `PROCESS` lists the evaluations of its pass (R107). -/
theorem processEvaluations_of_accepting {s : State} (E : RoundKeys → Block → Block) (input : List Byte)
    (h : s.accepting) :
    processEvaluations E input s =
      cfbEvaluations s.CTL.WC (contextCipher E s) s.CTL.DIR s.FB s.CTL.CUR input := by
  rcases h with h | h <;> simp only [processEvaluations, h]

/-- A pass over no input evaluates nothing (R103). -/
@[simp] theorem cfbEvaluations_nil (w : Width) (enc : Block → Block) (dir : Direction) (fb : Block)
    (cur : BitVec 3) : cfbEvaluations w enc dir fb cur [] = [] := by
  cases w <;> rfl

/-- The lifecycle test of `PROCESS` passes on an accepting context, over any block function (R101). -/
theorem process_of_accepting {s : State} (E : RoundKeys → Block → Block) (input : List Byte) (h : s.accepting) :
    process E input s = processStream E input s := by
  rcases h with h | h <;> simp only [process, h]

/-- An empty `PROCESS` on an accepting context only answers (R103). -/
theorem execProcess_nil_of_accepting {s : State} (h : s.accepting) :
    execProcess [] s = .next (respond 3#4 .ok 0#24 [] s) :=
  congrArg _ (process_of_accepting Config.E [] h)

/-- Settles O20, state by state. -/
theorem processIsRefusedOutsideAStream : Obligations.ProcessIsRefusedOutsideAStream := by
  intro s input
  refine ⟨fun h => ?_, fun h => ?_, fun h E => ?_, fun h => ?_⟩
  · rw [exec_process, execProcess_uninit input h, raise_eq_answered, responseWord_process_uninitialized]
  · rw [exec_process, execProcess_exhausted input h, raise_eq_answered, responseWord_process_exhausted]
  · exact processEvaluations_of_not_accepting E input (not_accepting_iff.2 h)
  · obtain ⟨t, e, _, _, _, _, _, _, _, hr⟩ := execProcess_accepting input h
    exact ⟨t, _, e, by rw [hr, responseWord_process_ok]⟩

/-- Settles O21: the empty input is answered before any pass, and a pass over it would evaluate nothing. -/
theorem emptyProcessWritesNothing : Obligations.EmptyProcessWritesNothing := by
  refine fun s h => ⟨?_, fun E => ?_⟩
  · rw [exec_process, execProcess_nil_of_accepting h, respond_eq_answered, responseWord_process_ok]
    rfl
  · rw [processEvaluations_of_accepting E [] h, cfbEvaluations_nil]

/-! ### What `PROCESS` keeps and what it does not read -/

/-- Settles O25: an answer writes no register, and a pass gives back the cursor it took (R30). -/
theorem processKeepsTheContextsParameters : Obligations.ProcessKeepsTheContextsParameters := by
  intro s t input e
  rcases exec_next_cases e with ⟨_, rfl⟩ | ⟨_, _, _, _, _, hi, _⟩ | ⟨xs, _, _, _, rfl⟩
  · exact ⟨rfl, rfl, rfl, rfl, rfl, rfl, _, rfl⟩
  · cases hi
  · have hcur : (contextPass Config.E xs s).cur = s.CTL.CUR := cfb_cur ..
    refine ⟨?_, rfl, rfl, rfl, rfl, rfl, _, rfl⟩
    rw [respond_CTL, storePass_CTL, hcur]

/-- The state with another key size and variant recorded in `CTL` (R29). -/
def State.recordingVariant (k : KeySize) (v : Variant) (s : State) : State :=
  { s with CTL := { s.CTL with KC := k, VAR := v } }

/-- No pass reads the recorded key size or variant, and none writes them (R104). -/
theorem processStream_recordingVariant (E : RoundKeys → Block → Block) (input : List Byte) (k : KeySize)
    (v : Variant) (s : State) :
    processStream E input (s.recordingVariant k v) = (processStream E input s).recordingVariant k v := by
  cases input <;> rfl

/-- Neither does the lifecycle test of `PROCESS`. -/
theorem process_recordingVariant (E : RoundKeys → Block → Block) (input : List Byte) (k : KeySize) (v : Variant)
    (s : State) : process E input (s.recordingVariant k v) = (process E input s).recordingVariant k v := by
  have hLS : (s.recordingVariant k v).CTL.LS = s.CTL.LS := rfl
  unfold process
  rw [hLS]
  cases s.CTL.LS with
  | uninit => rfl
  | exhausted => rfl
  | initialized => exact processStream_recordingVariant E input k v s
  | inUse => exact processStream_recordingVariant E input k v s

/-- Settles O26: recording them before `PROCESS` is recording them after it. -/
theorem variantAndKeySizeChangeNoResult : Obligations.VariantAndKeySizeChangeNoResult :=
  fun s input k v => ⟨process Config.E input s, rfl, congrArg _ (process_recordingVariant Config.E input k v s)⟩

/-! ### The lifecycle state after every command (R108, R197) -/

/-- `SELECT` leaves the lifecycle state (R173). -/
theorem execSelect_LS (ksb : BitVec 12) (fw : BitVec 8) (s : State) :
    ∃ t, execSelect ksb fw s = .next t ∧ t.CTL.LS = s.CTL.LS := by
  obtain ⟨_, e⟩ := execSelect_reads_table ksb fw s.HWREG
  exact ⟨_, e s rfl, rfl⟩

/-- An `INIT` whose operands do not satisfy R187 only answers (R194). -/
theorem execInit_of_not_initSucceeds (dir : Direction) {fw : BitVec 8} {ksref : KsRef} {iv : List Byte} {s : State}
    (h : ¬s.initSucceeds fw ksref iv) : ∃ word, execInit dir fw ksref iv s = .next (s.answered word []) := by
  rcases execInit_cases dir fw ksref iv s with ⟨_, e⟩ | ⟨_, _, e⟩ | ⟨_, _, _, e⟩ | ⟨_, hsel, hl, _⟩
  · exact ⟨_, e⟩
  · exact ⟨_, e⟩
  · exact ⟨_, e⟩
  · exact absurd (initSucceeds_of_select hsel hl) h

/-- A successful `INIT` ends in `Initialized`, and any other leaves the lifecycle state (R197). -/
theorem execInit_LS (dir : Direction) (fw : BitVec 8) (ksref : KsRef) (iv : List Byte) (s : State) :
    ∃ t, execInit dir fw ksref iv s = .next t
      ∧ t.CTL.LS = if s.initSucceeds fw ksref iv then .initialized else s.CTL.LS := by
  by_cases h : s.initSucceeds fw ksref iv
  · obtain ⟨_, _, _, e⟩ := execInit_succeeds dir h
    exact ⟨_, e, (if_pos h).symm⟩
  · obtain ⟨_, e⟩ := execInit_of_not_initSucceeds dir h
    exact ⟨_, e, (if_neg h).symm⟩

/-- The lifecycle write of an accepted `PROCESS` (R108). -/
theorem execProcess_LS_of_accepting {s t : State} {input : List Byte} (h : s.accepting)
    (e : execProcess input s = .next t) :
    t.CTL.LS =
      if input.length = 0 then s.CTL.LS
      else if s.CTL.WC = .w128 ∧ input.length % 16 ≠ 0 then .exhausted else .inUse := by
  obtain ⟨t', e', _, hCTL, _⟩ := execProcess_accepting input h
  cases next_unique e e'
  rw [hCTL, contextPass, cfb_ls]
  simp only [List.length_eq_zero_iff]

/-- The lifecycle state after any `PROCESS` (R101, R108). -/
theorem execProcess_LS (input : List Byte) (s : State) :
    ∃ t, execProcess input s = .next t
      ∧ t.CTL.LS =
        if ¬s.accepting ∨ input.length = 0 then s.CTL.LS
        else if s.CTL.WC = .w128 ∧ input.length % 16 ≠ 0 then .exhausted
        else .inUse := by
  refine ⟨_, rfl, ?_⟩
  by_cases h : s.accepting
  · rw [execProcess_LS_of_accepting h rfl]
    simp only [h, not_true, false_or]
  · rw [if_pos (.inl h)]
    rcases not_accepting_iff.1 h with h | h <;> simp only [process, h, raise_CTL]

/-- Settles O34: an illegal header only answers, and each instruction has its lemma. -/
theorem lifecycleTransitions : Obligations.LifecycleTransitions := by
  intro s c rest he hf
  cases hd : decode c with
  | error why => exact ⟨_, step_of_decode_error he hf hd, rfl⟩
  | ok i =>
    rw [step_of_decode he hf hd]
    cases i with
    | select ksb fw => exact execSelect_LS ksb fw _
    | init dir fw ksref iv => exact execInit_LS dir fw ksref iv _
    | process input => exact execProcess_LS input _

end Sys2Proof.Machine
end

section
/-! PROOFS. The statements about the evaluations of the block cipher (R107): how many the model lists, and that a pass
takes nothing else from the cipher. -/

namespace Sys2Proof.Machine

/-! ### How many evaluations are listed -/

/-- One evaluation per chunk, a partial one included, per byte, or per bit (R107). -/
theorem length_cfbEvaluations (w : Width) (enc : Block → Block) (dir : Direction) (fb : Block) (cur : BitVec 3)
    (xs : List Byte) :
    (cfbEvaluations w enc dir fb cur xs).length =
      match w with
      | .w128 => (xs.length + 15) / 16
      | .w8 => xs.length
      | .w1 => 8 * xs.length := by
  cases w with
  | w128 =>
    simp only [cfbEvaluations, List.length_append, length_unitStarts, length_fullChunks]
    split
    · rw [List.length_nil]; omega
    · rw [List.length_singleton]; omega
  | w8 => exact length_unitStarts _ fb xs
  | w1 =>
    have hbits (p : (Block × BitVec 3) × Byte) :
        ((unitStarts (bitUnit enc dir) p.1 (bitsOfByte p.2)).map Prod.fst).length = 8 := by simp
    simp only [cfbEvaluations, List.length_flatMap, hbits, List.map_const', List.sum_replicate,
      List.length_zip, length_unitStarts, Nat.min_self, smul_eq_mul]
    exact Nat.mul_comm _ _

/-- Settles O28: the list is that of the pass, or empty. -/
theorem evaluationsAreCountedByWidth : Obligations.EvaluationsAreCountedByWidth := by
  refine fun E s input => ⟨fun h => ?_, processEvaluations_of_not_accepting E input⟩
  rw [processEvaluations_of_accepting E input h]
  exact length_cfbEvaluations ..

/-! ### A pass depends on the cipher at the listed values only -/

/-- A pass depends on a unit step only at the states where its steps begin. -/
theorem passUnits_congr_of_starts {σ α β : Type} {unit unit' : σ → α → σ × β} {r : σ} {xs : List α}
    (h : ∀ q ∈ unitStarts unit r xs, ∀ x, unit q x = unit' q x) :
    passUnits unit r xs = passUnits unit' r xs :=
  passUnits_congr unit r xs fun _ hp => h _ (List.of_mem_zip hp).1 _

/-- A chunk step takes one value from the cipher (R107). -/
theorem chunkUnit_congr {enc enc' : Block → Block} (dir : Direction) {fb : Block} (h : enc fb = enc' fb)
    (x : Block) : chunkUnit enc dir fb x = chunkUnit enc' dir fb x := by
  rw [chunkUnit, h, chunkUnit]

/-- A byte step takes one value from the cipher (R107). -/
theorem byteUnit_congr {enc enc' : Block → Block} (dir : Direction) {fb : Block} (h : enc fb = enc' fb)
    (x : Byte) : byteUnit enc dir fb x = byteUnit enc' dir fb x := by
  rw [byteUnit, h, byteUnit]

/-- A bit step takes one value from the cipher (R107). -/
theorem bitUnit_congr {enc enc' : Block → Block} (dir : Direction) {r : Block × BitVec 3}
    (h : enc r.1 = enc' r.1) (x : Bool) : bitUnit enc dir r x = bitUnit enc' dir r x := by
  rw [bitUnit, h, bitUnit]

/-- The eight bit steps of a byte take their eight values (R107). -/
theorem bitsUnit_congr {enc enc' : Block → Block} {dir : Direction} {r : Block × BitVec 3} {x : Byte}
    (h : ∀ b ∈ (unitStarts (bitUnit enc dir) r (bitsOfByte x)).map Prod.fst, enc b = enc' b) :
    bitsUnit enc dir r x = bitsUnit enc' dir r x := by
  have hpass : passUnits (bitUnit enc dir) r (bitsOfByte x) = passUnits (bitUnit enc' dir) r (bitsOfByte x) :=
    passUnits_congr_of_starts fun q hq => bitUnit_congr dir (h q.1 (List.mem_map_of_mem hq))
  rw [bitsUnit, hpass, bitsUnit]

/-- CFB128: one value per full chunk, and one more for a partial chunk. -/
theorem cfb128_congr {enc enc' : Block → Block} {dir : Direction} {fb : Block} {cur : BitVec 3} {xs : List Byte}
    (h : ∀ b ∈ cfbEvaluations .w128 enc dir fb cur xs, enc b = enc' b) :
    cfb128 enc dir fb cur xs = cfb128 enc' dir fb cur xs := by
  have hpass : passUnits (chunkUnit enc dir) fb (fullChunks (xs.length / 16) xs)
      = passUnits (chunkUnit enc' dir) fb (fullChunks (xs.length / 16) xs) :=
    passUnits_congr_of_starts fun q hq => chunkUnit_congr dir (h q (List.mem_append_left _ hq))
  by_cases hr : xs.length % 16 = 0
  · simp only [cfb128, hpass, hr, if_true]
  · have hlast : (passUnits (chunkUnit enc dir) fb (fullChunks (xs.length / 16) xs)).1
        ∈ cfbEvaluations .w128 enc dir fb cur xs :=
      List.mem_append_right _ (by simp [hr])
    have henc := h _ hlast
    rw [hpass] at henc
    simp only [cfb128, hpass, henc]

/-- A pass is the same for two block functions that agree at the values it evaluates. -/
theorem cfb_congr {w : Width} {enc enc' : Block → Block} {dir : Direction} {fb : Block} {cur : BitVec 3}
    {xs : List Byte} (h : ∀ b ∈ cfbEvaluations w enc dir fb cur xs, enc b = enc' b) :
    cfb w enc dir fb cur xs = cfb w enc' dir fb cur xs := by
  cases w with
  | w128 => exact cfb128_congr h
  | w8 =>
    have hpass : passUnits (byteUnit enc dir) fb xs = passUnits (byteUnit enc' dir) fb xs :=
      passUnits_congr_of_starts fun q hq => byteUnit_congr dir (h q hq)
    simp only [cfb, cfb8, hpass]
  | w1 =>
    have hpass : passUnits (bitsUnit enc dir) (fb, cur) xs = passUnits (bitsUnit enc' dir) (fb, cur) xs :=
      passUnits_congr _ _ _ fun p hp => bitsUnit_congr fun b hb => h b (List.mem_flatMap.2 ⟨p, hp, hb⟩)
    simp only [cfb, cfb1, hpass]

/-- Settles O29: a refused `PROCESS` takes nothing from the cipher, and an accepted one what its pass takes. -/
theorem resultDependsOnlyOnTheListedEvaluations : Obligations.ResultDependsOnlyOnTheListedEvaluations := by
  intro E E' s input hE
  by_cases h : s.accepting
  · rw [processEvaluations_of_accepting E input h] at hE
    have hpass : contextPass E input s = contextPass E' input s := cfb_congr hE
    rw [process_of_accepting E input h, process_of_accepting E' input h]
    cases input with
    | nil => rfl
    | cons x xs => simp only [processStream, hpass]
  · rcases not_accepting_iff.1 h with h | h <;> simp only [process, h]

end Sys2Proof.Machine
end

section
/-! PROOFS. The laws over whole streams: streaming in pieces is one call (R111), and decryption undoes encryption
(R112). -/

namespace Sys2Proof.Machine

/-! ### Streaming -/

/-- A context still accepts data after whole units (R108): the piece does not exhaust it. -/
theorem accepting_after_whole_units {s t : State} {xs : List Byte} (h : s.accepting)
    (hw : s.CTL.WC = .w128 → xs.length % 16 = 0) (e : execProcess xs s = .next t) : t.accepting := by
  have hLS := execProcess_LS_of_accepting h e
  have hnot : ¬(s.CTL.WC = .w128 ∧ xs.length % 16 ≠ 0) := fun hx => hx.2 (hw hx.1)
  rw [if_neg hnot] at hLS
  split at hLS
  · rwa [State.accepting, hLS]
  · exact .inr hLS

/-- The register and the output of an accepted `PROCESS` are those of its pass (R102). -/
theorem execProcess_stores_pass {s t : State} {xs : List Byte} (h : s.accepting) (e : execProcess xs s = .next t) :
    t.FB = (contextPass Config.E xs s).fb ∧ t.lastOutput = (contextPass Config.E xs s).out := by
  obtain ⟨t', e', hFB, _⟩ := execProcess_accepting xs h
  obtain ⟨t'', e'', hout⟩ := execProcess_lastOutput xs h
  cases next_unique e e'
  cases next_unique e e''
  exact ⟨hFB, hout⟩

/-- A pass after a `PROCESS` differs from one before it in the register it starts from only (R113). -/
theorem contextPass_after_process {s t : State} {xs : List Byte} (e : execProcess xs s = .next t)
    (E : RoundKeys → Block → Block) (ys : List Byte) :
    contextPass E ys t = cfb s.CTL.WC (contextCipher E s) s.CTL.DIR t.FB s.CTL.CUR ys := by
  obtain ⟨hCTL, hKSREF, hKS, _⟩ := processKeepsTheContextsParameters s t xs e
  rw [contextPass, contextCipher, hCTL, hKSREF, hKS]
  rfl

/-- `PROCESS` keeps the width (R113). -/
theorem execProcess_WC {s t : State} {xs : List Byte} (e : execProcess xs s = .next t) : t.CTL.WC = s.CTL.WC := by
  obtain ⟨hCTL, _⟩ := processKeepsTheContextsParameters s t xs e
  rw [hCTL]

/-- After two pieces, the first of whole units, the lifecycle state is that after one call (R108, R111). -/
theorem execProcess_append_LS {s t u v : State} {xs ys : List Byte} (h : s.accepting)
    (hw : s.CTL.WC = .w128 → xs.length % 16 = 0) (ht : execProcess xs s = .next t)
    (hu : execProcess ys t = .next u) (hv : execProcess (xs ++ ys) s = .next v) : u.CTL.LS = v.CTL.LS := by
  have huLS := execProcess_LS_of_accepting (accepting_after_whole_units h hw ht) hu
  by_cases hys : ys = []
  · subst hys
    rw [List.append_nil] at hv
    rw [huLS, next_unique ht hv]
    rfl
  · have hlen : (xs ++ ys).length = xs.length + ys.length := List.length_append
    have hne : ys.length ≠ 0 := mt List.length_eq_zero_iff.1 hys
    have hne' : (xs ++ ys).length ≠ 0 := by omega
    have hpartial : (s.CTL.WC = .w128 ∧ ys.length % 16 ≠ 0)
        ↔ (s.CTL.WC = .w128 ∧ (xs ++ ys).length % 16 ≠ 0) :=
      and_congr_right fun h128 => by have := hw h128; omega
    rw [huLS, execProcess_LS_of_accepting h hv, if_neg hne, if_neg hne', execProcess_WC ht]
    simp only [hpartial]

/-- Two pieces, the first of whole units, are one call: the second pass starts where the first ended (R111). -/
theorem execProcess_append {s t u v : State} {xs ys : List Byte} (h : s.accepting)
    (hw : s.CTL.WC = .w128 → xs.length % 16 = 0) (ht : execProcess xs s = .next t)
    (hu : execProcess ys t = .next u) (hv : execProcess (xs ++ ys) s = .next v) :
    u.sameEngine v ∧ v.lastOutput = t.lastOutput ++ u.lastOutput := by
  obtain ⟨htFB, htout⟩ := execProcess_stores_pass h ht
  obtain ⟨huFB, huout⟩ := execProcess_stores_pass (accepting_after_whole_units h hw ht) hu
  obtain ⟨hvFB, hvout⟩ := execProcess_stores_pass h hv
  rw [contextPass_after_process ht, htFB] at huFB huout
  obtain ⟨hfb, hout⟩ := cfb_append s.CTL.WC (contextCipher Config.E s) s.CTL.DIR s.FB s.CTL.CUR xs ys hw
  obtain ⟨tCTL, tKSREF, tKS, tT, _⟩ := processKeepsTheContextsParameters s t xs ht
  obtain ⟨uCTL, uKSREF, uKS, uT, _⟩ := processKeepsTheContextsParameters t u ys hu
  obtain ⟨vCTL, vKSREF, vKS, vT, _⟩ := processKeepsTheContextsParameters s v (xs ++ ys) hv
  have hCTL : u.CTL = v.CTL := by rw [uCTL, tCTL, vCTL, execProcess_append_LS h hw ht hu hv]
  refine ⟨⟨?_, hCTL, ?_, ?_, ?_⟩, ?_⟩
  · rw [huFB, hvFB]; exact hfb.symm
  · rw [uKSREF, tKSREF, vKSREF]
  · rw [uKS, tKS, vKS]
  · rw [uT, tT, vT]
  · rw [hvout, htout, huout]; exact hout

/-- The output of `PROCESS` is the payload of the one response it adds (R80). -/
theorem execProcess_responses {s t : State} {xs : List Byte} (e : execProcess xs s = .next t) :
    ∃ r, t.responses = s.responses ++ [r] ∧ r.payload = t.lastOutput := by
  obtain ⟨_, _, _, _, _, _, r, hr⟩ := processKeepsTheContextsParameters s t xs e
  exact ⟨r, hr, by simp [State.lastOutput, hr]⟩

/-- Every `PROCESS` answers a next state. -/
theorem execProcess_next (xs : List Byte) (s : State) : ∃ t, execProcess xs s = .next t := ⟨_, rfl⟩

/-- Equality of engines is transitive (R37). -/
theorem sameEngine_trans {s t u : State} (h : s.sameEngine t) (h' : t.sameEngine u) : s.sameEngine u := by
  obtain ⟨hFB, hCTL, hKSREF, hKS, hT⟩ := h
  obtain ⟨hFB', hCTL', hKSREF', hKS', hT'⟩ := h'
  exact ⟨hFB.trans hFB', hCTL.trans hCTL', hKSREF.trans hKSREF', hKS.trans hKS', hT.trans hT'⟩

/-- Streaming in pieces, with the responses that the pieces add (R111). -/
theorem execAll_pieces (s : State) (pieces : List (List Byte)) (h : s.accepting)
    (hw : s.CTL.WC = .w128 → ∀ p ∈ pieces.dropLast, p.length % 16 = 0) :
    ∃ t u rs, execAll (pieces.map Instr.process) s = .next t
      ∧ execProcess pieces.flatten s = .next u
      ∧ t.sameEngine u ∧ t.responses = s.responses ++ rs ∧ rs.flatMap Response.payload = u.lastOutput := by
  induction pieces generalizing s with
  | nil =>
    exact ⟨s, _, [], rfl, execProcess_nil_of_accepting h, ⟨rfl, rfl, rfl, rfl, rfl⟩, (List.append_nil _).symm,
      (respond_lastOutput ..).symm⟩
  | cons p ps ih =>
    obtain ⟨m, em⟩ := execProcess_next p s
    obtain ⟨r, hr, hp⟩ := execProcess_responses em
    cases ps with
    | nil =>
      rw [List.flatten_singleton]
      exact ⟨m, m, [r], execAll_cons_of_next (i := .process p) [] em, em, ⟨rfl, rfl, rfl, rfl, rfl⟩, hr,
        by rw [List.flatMap_singleton, hp]⟩
    | cons q qs =>
      have hwp : s.CTL.WC = .w128 → p.length % 16 = 0 := fun h128 => hw h128 p List.mem_cons_self
      have hwm : m.CTL.WC = .w128 → ∀ x ∈ (q :: qs).dropLast, x.length % 16 = 0 := fun h128 x hx =>
        hw ((execProcess_WC em).symm.trans h128) x (List.mem_cons_of_mem p hx)
      obtain ⟨t, u, rs, et, eu, htu, hrs, hout⟩ := ih m (accepting_after_whole_units h hwp em) hwm
      obtain ⟨v, ev⟩ := execProcess_next (p :: q :: qs).flatten s
      obtain ⟨huv, hvout⟩ := execProcess_append h hwp em eu ev
      have et' := (execAll_cons_of_next (i := .process p) ((q :: qs).map Instr.process) em).trans et
      refine ⟨t, v, r :: rs, et', ev, sameEngine_trans htu huv, ?_, ?_⟩
      · rw [hrs, hr, List.append_assoc, List.singleton_append]
      · rw [List.flatMap_cons, hp, hout, hvout]

/-- A partial chunk exhausts a CFB128 context (R108, R124). -/
theorem execProcess_exhausts {s t : State} {xs : List Byte} (h : s.accepting) (h128 : s.CTL.WC = .w128)
    (hr : xs.length % 16 ≠ 0) (e : execProcess xs s = .next t) : t.CTL.LS = .exhausted := by
  have hne : xs.length ≠ 0 := fun h0 => hr (by rw [h0])
  rw [execProcess_LS_of_accepting h e, if_neg hne, if_pos ⟨h128, hr⟩]

/-- Settles O30: the pieces one by one, and a partial chunk exhausts the context. -/
theorem streamingInPiecesEqualsOneCall : Obligations.StreamingInPiecesEqualsOneCall := by
  refine ⟨fun s pieces h hw => ?_, fun s piece following h h128 hr => ?_⟩
  · obtain ⟨t, u, rs, et, eu, htu, hrs, hout⟩ := execAll_pieces s pieces h hw
    exact ⟨t, u, et, eu, htu, by rw [State.outputsAfter, hrs, List.drop_left, hout]⟩
  · obtain ⟨t, e⟩ := execProcess_next piece s
    have hLS := execProcess_exhausts h h128 hr e
    exact ⟨t, e, by rw [exec_process, execProcess_exhausted following hLS, raise_eq_answered,
      responseWord_process_exhausted]⟩

/-! ### Round trip -/

theorem widthBits_injective : Function.Injective widthBits := by
  intro a b; cases a <;> cases b <;> decide

/-- A successful `INIT` leaves a fresh context of the width its operand names (R189 to R191). -/
theorem execInit_fresh (dir : Direction) {fw : BitVec 8} {ksref : KsRef} {iv : List Byte} {s : State} {w : Width}
    (h : s.initSucceeds fw ksref iv) (hw : fw.toNat = widthBits w) :
    ∃ a, execInit dir fw ksref iv s = .next a ∧ a.accepting
      ∧ ∀ E input, contextPass E input a =
        cfb w (E (keySlot s.KS ksref).rk) dir (blockOfBytes iv) 0#3 input := by
  obtain ⟨hd, hsel, _, e⟩ := execInit_succeeds dir h
  obtain ⟨_, hwc, _⟩ := select_eq_some.1 hsel
  obtain rfl := widthBits_injective (hw.symm.trans hwc)
  exact ⟨_, e, .inl rfl, fun _ _ => rfl⟩

/-- The width a good `INIT` operand names (R187). -/
theorem width_of_initSucceeds {fw : BitVec 8} {ksref : KsRef} {iv : List Byte} {s : State}
    (h : s.initSucceeds fw ksref iv) : ∃ w, fw.toNat = widthBits w := by
  obtain ⟨_, hw | hw | hw, _⟩ := h
  · exact ⟨.w128, hw⟩
  · exact ⟨.w8, hw⟩
  · exact ⟨.w1, hw⟩

/-- Settles O31: both contexts start from the IV with one cipher and one width, and the passes undo each other. -/
theorem decryptUndoesEncrypt : Obligations.DecryptUndoesEncrypt := by
  intro s s' fw ksref iv P hKS h
  have h' : s'.initSucceeds fw ksref iv := by rwa [State.initSucceeds, ← hKS]
  obtain ⟨w, hw⟩ := width_of_initSucceeds h
  obtain ⟨a, ea, ha, hpa⟩ := execInit_fresh .encrypt h hw
  obtain ⟨b, eb, hb, hpb⟩ := execInit_fresh .decrypt h' hw
  obtain ⟨t, et⟩ := execProcess_next P a
  obtain ⟨u, eu⟩ := execProcess_next t.lastOutput b
  obtain ⟨htFB, htout⟩ := execProcess_stores_pass ha et
  obtain ⟨huFB, huout⟩ := execProcess_stores_pass hb eu
  rw [hpa] at htFB htout
  rw [hpb, htout, ← hKS] at huFB huout
  obtain ⟨hout, hfb⟩ := cfb_inverse w (Config.E (keySlot s.KS ksref).rk) (blockOfBytes iv) 0#3 P
  exact ⟨a, b, t, u, ea, eb, et, eu, huout.trans hout, huFB.trans (hfb.trans htFB.symm)⟩

end Sys2Proof.Machine
end

section
/-! PROOFS. The statements about CFB128: every byte masked with its chunk's keystream and the ciphertext block fed back
(R121, R122, R124), and the exhausted context that a partial chunk leaves (R125). -/

namespace Sys2Proof.Machine

/-! ### The register chunk by chunk -/

/-- The register of a CFB128 pass after `j` full chunks (R122). -/
def cfb128Reg (enc : Block → Block) (dir : Direction) (fb : Block) (xs : List Byte) (j : Nat) : Block :=
  stateAfter (chunkUnit enc dir) fb (fullChunks (xs.length / 16) xs) j

@[simp] theorem cfb128Reg_zero (enc : Block → Block) (dir : Direction) (fb : Block) (xs : List Byte) :
    cfb128Reg enc dir fb xs 0 = fb := stateAfter_zero ..

/-- A pass leaves the register after its last full chunk: a partial chunk writes none (R124). -/
theorem cfb128_fb_eq_cfb128Reg (enc : Block → Block) (dir : Direction) (fb : Block) (cur : BitVec 3)
    (xs : List Byte) :
    (cfb128 enc dir fb cur xs).fb = cfb128Reg enc dir fb xs (xs.length / 16) := by
  have hlast := stateAfter_length (chunkUnit enc dir) fb (fullChunks (xs.length / 16) xs)
  rw [length_fullChunks] at hlast
  exact hlast.symm

/-- The direction decides which of two units is fed back (R106). -/
theorem fedBack_eq_ite {α : Type} (dir : Direction) (o x : α) :
    fedBack dir o x = if dir = .encrypt then o else x := by
  cases dir <;> rfl

/-- Feeding back acts on each byte of a block (R106). -/
theorem byteAt_fedBack (dir : Direction) (o x : Block) (i : Nat) :
    byteAt (fedBack dir o x) i = fedBack dir (byteAt o i) (byteAt x i) := by
  cases dir <;> rfl

/-- Output byte `i` of full chunk `j` is byte `i` of the block that chunk's step puts out (R121). -/
theorem getD_cfb128_out_eq_chunkUnit (enc : Block → Block) (dir : Direction) (fb : Block) (cur : BitVec 3)
    {xs : List Byte} {j i : Nat} (hj : j < xs.length / 16) (hi : i < 16) :
    (cfb128 enc dir fb cur xs).out.getD (16 * j + i) 0#8 =
      byteAt (chunkUnit enc dir (cfb128Reg enc dir fb xs j)
        ((fullChunks (xs.length / 16) xs)[j]'(by simpa using hj))).2 i := by
  have hblocks : j < (passUnits (chunkUnit enc dir) fb (fullChunks (xs.length / 16) xs)).2.length := by
    rwa [length_passUnits, length_fullChunks]
  rw [cfb128_out, List.getD_append _ _ _ _ (by rw [length_flatMap_blockBytes]; omega),
    getD_flatMap_blockBytes _ hblocks hi, getElem_passUnits _ _ _ _ (by rwa [length_fullChunks])]
  rfl

/-- Each byte of a full chunk is masked with its keystream byte (R121). -/
theorem getD_cfb128_out_full (enc : Block → Block) (dir : Direction) (fb : Block) (cur : BitVec 3) {xs : List Byte}
    {j i : Nat} (hj : j < xs.length / 16) (hi : i < 16) :
    (cfb128 enc dir fb cur xs).out.getD (16 * j + i) 0#8 =
      xs.getD (16 * j + i) 0#8 ^^^ byteAt (enc (cfb128Reg enc dir fb xs j)) i := by
  rw [getD_cfb128_out_eq_chunkUnit enc dir fb cur hj hi, chunkUnit, byteAt_xor,
    byteAt_fullChunks (by omega) hj hi]

/-- Each full chunk replaces the register by its ciphertext block (R122). -/
theorem byteAt_cfb128Reg_succ (enc : Block → Block) (dir : Direction) (fb : Block) (cur : BitVec 3) {xs : List Byte}
    {j i : Nat} (hj : j < xs.length / 16) (hi : i < 16) :
    byteAt (cfb128Reg enc dir fb xs (j + 1)) i =
      fedBack dir ((cfb128 enc dir fb cur xs).out.getD (16 * j + i) 0#8) (xs.getD (16 * j + i) 0#8) := by
  rw [getD_cfb128_out_eq_chunkUnit enc dir fb cur hj hi, cfb128Reg,
    stateAfter_succ _ _ _ _ (by rwa [length_fullChunks]), chunkUnit, byteAt_fedBack,
    byteAt_fullChunks (by omega) hj hi]
  rfl

/-- Each byte of a partial chunk is masked with its keystream byte (R124). -/
theorem getD_maskPartial (ks : Block) {xs : List Byte} (hx : xs.length ≤ 16) {i : Nat} (hi : i < xs.length) :
    (maskPartial ks xs).getD i 0#8 = xs.getD i 0#8 ^^^ byteAt ks i := by
  rw [List.getD_eq_getElem _ _ (by rwa [length_maskPartial ks hx]), List.getD_eq_getElem _ _ hi]
  simp only [maskPartial, List.getElem_zipWith, getElem_blockBytes]

/-- The bytes after the full chunks are masked with one further keystream block (R124). -/
theorem getD_cfb128_out_partial (enc : Block → Block) (dir : Direction) (fb : Block) (cur : BitVec 3)
    {xs : List Byte} {i : Nat} (hi : i < xs.length % 16) :
    (cfb128 enc dir fb cur xs).out.getD (16 * (xs.length / 16) + i) 0#8 =
      xs.getD (16 * (xs.length / 16) + i) 0#8
        ^^^ byteAt (enc (cfb128Reg enc dir fb xs (xs.length / 16))) i := by
  have hr : xs.length % 16 ≠ 0 := by omega
  have hrest : (xs.drop (16 * (xs.length / 16))).length = xs.length % 16 := by rw [List.length_drop]; omega
  have hfull : ((passUnits (chunkUnit enc dir) fb (fullChunks (xs.length / 16) xs)).2.flatMap blockBytes).length
      = 16 * (xs.length / 16) := by
    rw [length_flatMap_blockBytes, length_passUnits, length_fullChunks]
  rw [cfb128_out, if_neg hr, List.getD_append_right _ _ _ _ (by omega), hfull, Nat.add_sub_cancel_left,
    getD_maskPartial _ (by omega) (by omega), cfb128_fb_eq_cfb128Reg]
  simp only [List.getD_eq_getElem?_getD, List.getElem?_drop]

/-! ### `PROCESS` in CFB128 -/

/-- What a non-empty `PROCESS` of width 128 answers and writes (R108, R121): the cursor stays. -/
theorem execProcess_w128 {s : State} {input : List Byte} (h : s.accepting) (h128 : s.CTL.WC = .w128)
    (hne : input ≠ []) :
    execProcess input s = .next
      ({ s with
          FB := (cfb128 (contextCipher Config.E s) s.CTL.DIR s.FB s.CTL.CUR input).fb
          CTL := { s.CTL with LS := if input.length % 16 = 0 then .inUse else .exhausted } }.answered
        (0x30000000#32 ||| (BitVec.ofNat 24 input.length).setWidth 32)
        (cfb128 (contextCipher Config.E s) s.CTL.DIR s.FB s.CTL.CUR input).out) := by
  have hpass : contextPass Config.E input s
      = cfb128 (contextCipher Config.E s) s.CTL.DIR s.FB s.CTL.CUR input := by rw [contextPass, h128, cfb]
  rw [execProcess_pass h hne, hpass, respond_eq_answered, responseWord_process_ok]
  rfl

/-- Settles O22: the registers are those of the pass after each full chunk, and its output has the bytes stated. -/
theorem cfb128ChunksAreMaskedAndFedBack : Obligations.Cfb128ChunksAreMaskedAndFedBack := by
  intro s input h h128 hne
  refine ⟨cfb128Reg (contextCipher Config.E s) s.CTL.DIR s.FB input,
    (cfb128 (contextCipher Config.E s) s.CTL.DIR s.FB s.CTL.CUR input).out, cfb128Reg_zero ..,
    length_cfb128_out .., fun j hj i hi => ⟨getD_cfb128_out_full _ _ _ _ hj hi, ?_⟩,
    fun i hi => getD_cfb128_out_partial _ _ _ _ hi, ?_⟩
  · rw [← fedBack_eq_ite]
    exact byteAt_cfb128Reg_succ _ _ _ _ hj hi
  · rw [exec_process, execProcess_w128 h h128 hne, cfb128_fb_eq_cfb128Reg]

/-! ### The exhausted context -/

/-- On an exhausted context any number of `PROCESS` commands are each refused, and nothing else changes (R125). -/
theorem execAll_process_exhausted (further : List (List Byte)) {t : State} (h : t.CTL.LS = .exhausted) :
    execAll (further.map Instr.process) t = .next
      { t with responses := t.responses ++ further.map fun _ => ⟨0x35000000#32, []⟩ } := by
  induction further generalizing t with
  | nil => rw [List.map_nil, execAll_nil, List.map_nil, List.append_nil]
  | cons input further ih =>
    have e : exec (.process input) t = .next (t.answered 0x35000000#32 []) := by
      rw [exec_process, execProcess_exhausted input h, raise_eq_answered, responseWord_process_exhausted]
    rw [List.map_cons, execAll_cons_of_next _ e, ih (t := t.answered _ _) h, answered_responses, List.map_cons,
      List.append_assoc, List.singleton_append]
    rfl

/-- Only an `INIT` that begins a context ends an exhausted one (R198). -/
theorem init_of_exec_leaves_exhausted {i : Instr} {s t : State} (h : s.CTL.LS = .exhausted)
    (e : exec i s = .next t) (ht : t.CTL.LS ≠ .exhausted) :
    t.CTL.LS = .initialized ∧ ∃ dir fw ksref iv, i = .init dir fw ksref iv := by
  rcases exec_next_cases e with ⟨_, rfl⟩ | ⟨dir, fw, ksref, iv, _, hi, _, _, rfl⟩ | ⟨_, _, ha, _⟩
  · exact absurd h ht
  · exact ⟨rfl, dir, fw, ksref, iv, hi⟩
  · exact absurd ha (not_accepting_iff.2 (.inr h))

/-- Settles O35: the partial chunk exhausts the context, and every command after it meets an exhausted one. -/
theorem exhaustedIsTerminal : Obligations.ExhaustedIsTerminal := by
  refine ⟨fun s input h h128 hr => ?_, fun s t i => init_of_exec_leaves_exhausted⟩
  obtain ⟨t, e⟩ := execProcess_next input s
  exact ⟨t, e, fun further => execAll_process_exhausted further (execProcess_exhausts h h128 hr e)⟩

end Sys2Proof.Machine
end

section
/-! PROOFS. The statements about CFB8: every byte masked with the first keystream byte and the ciphertext byte shifted
in (R136, R137), and how far a corrupted ciphertext byte reaches on decrypt (R140 (d)). -/

namespace Sys2Proof.Machine

/-! ### The register byte by byte -/

/-- The register of a CFB8 pass after `i` bytes (R137). -/
def cfb8Reg (enc : Block → Block) (dir : Direction) (fb : Block) (xs : List Byte) (i : Nat) : Block :=
  stateAfter (byteUnit enc dir) fb xs i

@[simp] theorem cfb8Reg_zero (enc : Block → Block) (dir : Direction) (fb : Block) (xs : List Byte) :
    cfb8Reg enc dir fb xs 0 = fb := stateAfter_zero ..

/-- A pass leaves the register after its last byte. -/
theorem cfb8_fb_eq_cfb8Reg (enc : Block → Block) (dir : Direction) (fb : Block) (cur : BitVec 3) (xs : List Byte) :
    (cfb8 enc dir fb cur xs).fb = cfb8Reg enc dir fb xs xs.length := (stateAfter_length ..).symm

theorem length_cfb8_out (enc : Block → Block) (dir : Direction) (fb : Block) (cur : BitVec 3) (xs : List Byte) :
    (cfb8 enc dir fb cur xs).out.length = xs.length := length_passUnits ..

/-- Each byte is masked with the first keystream byte (R136). -/
theorem getD_cfb8_out (enc : Block → Block) (dir : Direction) (fb : Block) (cur : BitVec 3) {xs : List Byte} {i : Nat}
    (hi : i < xs.length) :
    (cfb8 enc dir fb cur xs).out.getD i 0#8 = xs.getD i 0#8 ^^^ byteAt (enc (cfb8Reg enc dir fb xs i)) 0 := by
  rw [List.getD_eq_getElem _ _ (by rwa [length_cfb8_out]), List.getD_eq_getElem _ _ hi]
  exact getElem_passUnits (byteUnit enc dir) fb xs i hi

/-- Each step shifts its ciphertext byte into the register (R137). -/
theorem cfb8Reg_succ (enc : Block → Block) (dir : Direction) (fb : Block) (cur : BitVec 3) {xs : List Byte} {i : Nat}
    (hi : i < xs.length) :
    cfb8Reg enc dir fb xs (i + 1) = shiftInByte (cfb8Reg enc dir fb xs i)
      (fedBack dir ((cfb8 enc dir fb cur xs).out.getD i 0#8) (xs.getD i 0#8)) := by
  rw [getD_cfb8_out enc dir fb cur hi, List.getD_eq_getElem _ _ hi]
  exact stateAfter_succ (byteUnit enc dir) fb xs i hi

/-! ### `PROCESS` in CFB8 -/

theorem contextPass_w8 {s : State} (E : RoundKeys → Block → Block) (input : List Byte) (h8 : s.CTL.WC = .w8) :
    contextPass E input s = cfb8 (contextCipher E s) s.CTL.DIR s.FB s.CTL.CUR input := by
  rw [contextPass, h8, cfb]

/-- What a non-empty `PROCESS` of width 8 answers and writes (R108, R136): the cursor stays. -/
theorem execProcess_w8 {s : State} {input : List Byte} (h : s.accepting) (h8 : s.CTL.WC = .w8) (hne : input ≠ []) :
    execProcess input s = .next
      ({ s with
          FB := (cfb8 (contextCipher Config.E s) s.CTL.DIR s.FB s.CTL.CUR input).fb
          CTL := { s.CTL with LS := .inUse } }.answered
        (0x30000000#32 ||| (BitVec.ofNat 24 input.length).setWidth 32)
        (cfb8 (contextCipher Config.E s) s.CTL.DIR s.FB s.CTL.CUR input).out) := by
  rw [execProcess_pass h hne, contextPass_w8 Config.E input h8, respond_eq_answered, responseWord_process_ok]
  rfl

/-- Settles O23: the registers are those of the pass after each byte, and each step masks its byte and shifts in the
ciphertext byte. -/
theorem cfb8BytesAreMaskedAndFedBack : Obligations.Cfb8BytesAreMaskedAndFedBack := by
  intro s input h h8 hne
  refine ⟨cfb8Reg (contextCipher Config.E s) s.CTL.DIR s.FB input,
    (cfb8 (contextCipher Config.E s) s.CTL.DIR s.FB s.CTL.CUR input).out, cfb8Reg_zero ..,
    length_cfb8_out .., fun i hi => ⟨getD_cfb8_out _ _ _ _ hi, fun k hk => ?_, ?_⟩, ?_⟩
  · rw [cfb8Reg_succ _ _ _ s.CTL.CUR hi, byteAt_shiftInByte _ _ hk]
  · rw [cfb8Reg_succ _ _ _ s.CTL.CUR hi, byteAt_shiftInByte_last, fedBack_eq_ite]
  · rw [exec_process, execProcess_w8 h h8 hne, cfb8_fb_eq_cfb8Reg]

/-! ### A corrupted ciphertext byte -/

/-- On decrypt the register holds what the input bytes before it shifted in (R106, R137). -/
theorem cfb8Reg_decrypt (enc : Block → Block) (fb : Block) (xs : List Byte) (k : Nat) :
    cfb8Reg enc .decrypt fb xs k = (xs.take k).foldl shiftInByte fb :=
  passUnits_byteUnit_fb enc .decrypt fb (xs.take k)

/-- On decrypt the register after 16 bytes or more is the last 16 of them: nothing older is left in it. -/
theorem cfb8Reg_decrypt_add (enc : Block → Block) (fb : Block) {xs : List Byte} {j : Nat} (h : j + 16 ≤ xs.length) :
    cfb8Reg enc .decrypt fb xs (j + 16) = blockOfBytes ((xs.drop j).take 16) := by
  rw [cfb8Reg_decrypt, List.take_add, List.foldl_append,
    foldl_shiftInByte_of_length (by rw [List.length_take, List.length_drop]; omega)]

/-- Sequences of one length that agree on a window have the same window. -/
theorem take_drop_eq_of_getD_eq {xs xs' : List Byte} {a n : Nat} (hl : xs.length = xs'.length)
    (h : ∀ k, a ≤ k → k < a + n → xs.getD k 0#8 = xs'.getD k 0#8) :
    (xs.drop a).take n = (xs'.drop a).take n := by
  apply List.ext_getElem
  · simp only [List.length_take, List.length_drop, hl]
  · intro k hk hk'
    rw [List.length_take, List.length_drop] at hk hk'
    have hget := h (a + k) (by omega) (by omega)
    rw [List.getD_eq_getElem _ _ (by omega), List.getD_eq_getElem _ _ (by omega)] at hget
    simpa only [List.getElem_take, List.getElem_drop] using hget

/-- A corrupted byte at `i` is not in the register before step `i`, nor in that of a step after `i + 16`, which holds
16 later bytes (R140 (d)). -/
theorem cfb8Reg_decrypt_eq_outside (enc : Block → Block) (fb : Block) {xs xs' : List Byte} {i k : Nat}
    (hl : xs.length = xs'.length) (h : ∀ j, j ≠ i → xs.getD j 0#8 = xs'.getD j 0#8) (hk : k < xs.length)
    (hout : k < i ∨ i + 16 < k) : cfb8Reg enc .decrypt fb xs k = cfb8Reg enc .decrypt fb xs' k := by
  rcases hout with hlt | hgt
  · have hprefix : xs.take k = xs'.take k :=
      take_drop_eq_of_getD_eq (a := 0) hl fun j _ hj => h j (by omega)
    rw [cfb8Reg_decrypt, cfb8Reg_decrypt, hprefix]
  · obtain ⟨j, rfl⟩ : ∃ j, k = j + 16 := ⟨k - 16, by omega⟩
    rw [cfb8Reg_decrypt_add enc fb (by omega), cfb8Reg_decrypt_add enc fb (by omega),
      take_drop_eq_of_getD_eq hl fun m _ _ => h m (by omega)]

/-- Outside the window the decrypted bytes agree: the input bytes do, and so do the registers that mask them. -/
theorem getD_cfb8_out_decrypt_eq_outside (enc : Block → Block) (fb : Block) (cur : BitVec 3) {xs xs' : List Byte}
    {i k : Nat} (hl : xs.length = xs'.length) (h : ∀ j, j ≠ i → xs.getD j 0#8 = xs'.getD j 0#8)
    (hout : k < i ∨ i + 16 < k) :
    (cfb8 enc .decrypt fb cur xs).out.getD k 0#8 = (cfb8 enc .decrypt fb cur xs').out.getD k 0#8 := by
  rcases Nat.lt_or_ge k xs.length with hk | hk
  · rw [getD_cfb8_out _ _ _ _ hk, getD_cfb8_out _ _ _ _ (hl ▸ hk), h k (by omega),
      cfb8Reg_decrypt_eq_outside enc fb hl h hk hout]
  · rw [List.getD_eq_default _ _ (by rwa [length_cfb8_out]),
      List.getD_eq_default _ _ (by rwa [length_cfb8_out, ← hl])]

/-- Settles O32: both outputs are decrypting CFB8 passes from one register, which agree outside the window. -/
theorem cfb8CiphertextErrorIsConfined : Obligations.Cfb8CiphertextErrorIsConfined := by
  intro s input input' i ha h8 hdec hl h
  obtain ⟨t, e, ho⟩ := execProcess_lastOutput input ha
  obtain ⟨t', e', ho'⟩ := execProcess_lastOutput input' ha
  refine ⟨t, t', e, e', fun k hk => ?_⟩
  rw [ho, ho', contextPass_w8 _ _ h8, contextPass_w8 _ _ h8, hdec]
  exact getD_cfb8_out_decrypt_eq_outside _ _ _ hl h hk

end Sys2Proof.Machine
end

section
/-! PROOFS. The statements about CFB1: every bit masked with the top bit of the keystream and the ciphertext bit shifted
in (R151 to R153), and what bit shifts do to the bytes of the register (R157 (b), R153). -/

namespace Sys2Proof.Machine

/-! ### A bit shift on bytes -/

/-- Shifting a bit into a byte: bit `i` is the old bit `i - 1`, bit 0 the new bit. -/
theorem getLsbD_shiftLeft_or_ofBool (x : Byte) (c : Bool) {i : Nat} (h : i < 8) :
    ((x <<< 1) ||| (BitVec.ofBool c).setWidth 8).getLsbD i = if i = 0 then c else x.getLsbD (i - 1) := by
  cases i with
  | zero => simp
  | succ i => simp [h, -BitVec.getLsbD_eq_getElem]

/-- One bit shift shifts a bit into every byte: into byte 15 the new bit, into every other byte bit 7 of the byte to its
right (R153). -/
theorem byteAt_shiftInBit (b : Block) (c : Bool) {k : Nat} (hk : k < 16) :
    byteAt (shiftInBit b c) k =
      (byteAt b k <<< 1)
        ||| (BitVec.ofBool (if k = 15 then c else (byteAt b (k + 1)).getLsbD 7)).setWidth 8 := by
  apply BitVec.eq_of_getLsbD_eq
  intro i hi
  rw [getLsbD_shiftLeft_or_ofBool _ _ hi, getLsbD_byteAt, getLsbD_shiftInBit _ _ _ (by omega), decide_eq_true hi,
    Bool.true_and]
  cases i with
  | zero =>
    by_cases h15 : k = 15
    · simp [h15]
    · have hidx : 8 * (15 - k) - 1 = 8 * (15 - (k + 1)) + 7 := by omega
      rw [if_neg (by omega), if_pos rfl, if_neg h15, getLsbD_byteAt, decide_eq_true (by omega), Bool.true_and,
        Nat.add_zero, hidx]
  | succ i =>
    rw [if_neg (by omega), if_neg (by omega), getLsbD_byteAt, Nat.add_sub_cancel, decide_eq_true (by omega),
      Bool.true_and, ← Nat.add_assoc, Nat.add_sub_cancel]

/-- Settles O33: eight bit shifts are a byte shift, and one bit shift carries bit 7 of each byte to its left. -/
theorem bitShiftsMoveBytes : Obligations.BitShiftsMoveBytes := by
  refine ⟨foldl_shiftInBit_bitsOfByte, fun b c => ⟨fun k hk => ?_, byteAt_shiftInBit b c (by omega)⟩⟩
  rw [byteAt_shiftInBit b c (by omega), if_neg (by omega)]

/-! ### The register bit by bit -/

/-- Bit `j` of a byte sequence in the order CFB1 takes them, bit 7 of each byte first (R151). -/
def streamBit (xs : List Byte) (j : Nat) : Bool := (xs.getD (j / 8) 0#8).getLsbD (7 - j % 8)

/-- The register of a CFB1 pass after `j` bits (R153). -/
def cfb1Reg (enc : Block → Block) (dir : Direction) (fb : Block) (cur : BitVec 3) (xs : List Byte) (j : Nat) :
    Block :=
  (stateAfter (bitUnit enc dir) (fb, cur) (xs.flatMap bitsOfByte) j).1

section
variable (enc : Block → Block) (dir : Direction) (fb : Block) (cur : BitVec 3)

@[simp] theorem cfb1Reg_zero (xs : List Byte) : cfb1Reg enc dir fb cur xs 0 = fb := by
  rw [cfb1Reg, stateAfter_zero]

/-- A pass leaves the register after its last bit. -/
theorem cfb1_fb_eq_cfb1Reg (xs : List Byte) :
    (cfb1 enc dir fb cur xs).fb = cfb1Reg enc dir fb cur xs (8 * xs.length) := by
  rw [cfb1Reg, ← length_flatMap_bitsOfByte, stateAfter_length]
  exact congrArg Prod.fst (passUnits_bitsUnit enc dir (fb, cur) xs).1

theorem length_cfb1_out (xs : List Byte) : (cfb1 enc dir fb cur xs).out.length = xs.length := length_passUnits ..

/-- The output bits of a pass are the results of its bit steps, in order (R152). -/
theorem flatMap_bitsOfByte_cfb1_out (xs : List Byte) :
    (cfb1 enc dir fb cur xs).out.flatMap bitsOfByte
      = (passUnits (bitUnit enc dir) (fb, cur) (xs.flatMap bitsOfByte)).2 :=
  (passUnits_bitsUnit enc dir (fb, cur) xs).2

/-- Each bit is masked with the top bit of the keystream block (R152). -/
theorem streamBit_cfb1_out {xs : List Byte} {j : Nat} (hj : j < 8 * xs.length) :
    streamBit (cfb1 enc dir fb cur xs).out j =
      (streamBit xs j ^^ msbOfBlock (enc (cfb1Reg enc dir fb cur xs j))) := by
  have hin : j < (xs.flatMap bitsOfByte).length := by rwa [length_flatMap_bitsOfByte]
  have hout : j < ((cfb1 enc dir fb cur xs).out.flatMap bitsOfByte).length := by
    rwa [length_flatMap_bitsOfByte, length_cfb1_out]
  rw [streamBit, streamBit, ← getElem_flatMap_bitsOfByte _ _ hout, ← getElem_flatMap_bitsOfByte _ _ hin,
    List.getElem_of_eq (flatMap_bitsOfByte_cfb1_out enc dir fb cur xs), getElem_passUnits _ _ _ _ hin]
  rfl

/-- Each step shifts its ciphertext bit into the register (R153). -/
theorem cfb1Reg_succ {xs : List Byte} {j : Nat} (hj : j < 8 * xs.length) :
    cfb1Reg enc dir fb cur xs (j + 1) = shiftInBit (cfb1Reg enc dir fb cur xs j)
      (fedBack dir (streamBit (cfb1 enc dir fb cur xs).out j) (streamBit xs j)) := by
  have hin : j < (xs.flatMap bitsOfByte).length := by rwa [length_flatMap_bitsOfByte]
  rw [streamBit_cfb1_out enc dir fb cur hj, streamBit, ← getElem_flatMap_bitsOfByte _ _ hin, cfb1Reg,
    stateAfter_succ _ _ _ _ hin]
  rfl

end

/-! ### `PROCESS` in CFB1 -/

theorem contextPass_w1 {s : State} (E : RoundKeys → Block → Block) (input : List Byte) (h1 : s.CTL.WC = .w1) :
    contextPass E input s = cfb1 (contextCipher E s) s.CTL.DIR s.FB s.CTL.CUR input := by
  rw [contextPass, h1, cfb]

/-- What a non-empty `PROCESS` of width 1 answers and writes (R108, R152): after whole bytes the cursor is where it was
(R154). -/
theorem execProcess_w1 {s : State} {input : List Byte} (h : s.accepting) (h1 : s.CTL.WC = .w1) (hne : input ≠ []) :
    execProcess input s = .next
      ({ s with
          FB := (cfb1 (contextCipher Config.E s) s.CTL.DIR s.FB s.CTL.CUR input).fb
          CTL := { s.CTL with LS := .inUse } }.answered
        (0x30000000#32 ||| (BitVec.ofNat 24 input.length).setWidth 32)
        (cfb1 (contextCipher Config.E s) s.CTL.DIR s.FB s.CTL.CUR input).out) := by
  have hcur : (cfb1 (contextCipher Config.E s) s.CTL.DIR s.FB s.CTL.CUR input).cur = s.CTL.CUR :=
    passUnits_bitsUnit_cur ..
  rw [execProcess_pass h hne, contextPass_w1 Config.E input h1, storePass, hcur, respond_eq_answered,
    responseWord_process_ok]
  rfl

/-- Settles O24: the registers are those of the pass after each bit, and each step masks its bit and shifts in the
ciphertext bit. -/
theorem cfb1BitsAreMaskedAndFedBack : Obligations.Cfb1BitsAreMaskedAndFedBack := by
  intro s input h h1 hne
  refine ⟨cfb1Reg (contextCipher Config.E s) s.CTL.DIR s.FB s.CTL.CUR input,
    (cfb1 (contextCipher Config.E s) s.CTL.DIR s.FB s.CTL.CUR input).out, cfb1Reg_zero ..,
    length_cfb1_out .., fun j hj => ⟨streamBit_cfb1_out _ _ _ _ hj, fun k hk => ?_⟩, ?_⟩
  · rw [cfb1Reg_succ _ _ _ _ hj, getLsbD_shiftInBit _ _ _ hk, fedBack_eq_ite]
    rfl
  · rw [exec_process, execProcess_w1 h h1 hne, cfb1_fb_eq_cfb1Reg]

end Sys2Proof.Machine
end

section
/-! PROOFS. The statements about `SELECT`: the handles of the table (R176), and the pairs it refuses (R174). -/

namespace Sys2Proof.Machine

/-! ### What `SELECT` answers -/

/-- Where the selector has a handle, `SELECT` answers it with status 0 (R173, R80, R82). -/
theorem execSelect_of_select_eq_some {ksb : BitVec 12} {fw : BitVec 8} {s : State} {h : Handle}
    (hs : select s.HWREG ksb.toNat fw.toNat = some h) :
    execSelect ksb fw s = .next (s.answered (0x10000000#32 ||| (handleByte h).setWidth 32) []) := by
  rw [execSelect, hs, ← responseWord_select_ok]
  rfl

/-- Where it has none, `SELECT` answers `UnsupportedConfiguration` (R174). -/
theorem execSelect_of_select_eq_none {ksb : BitVec 12} {fw : BitVec 8} {s : State}
    (hs : select s.HWREG ksb.toNat fw.toNat = none) :
    execSelect ksb fw s = .next (s.answered 0x13000000#32 []) := by
  rw [execSelect, hs, ← responseWord_select_unsupported]
  rfl

/-! ### The table of R176 -/

/-- The operands in a row are the numbers of bits of the row's pair. -/
theorem bits_of_mem_handleTable :
    ∀ row ∈ handleTable, row.2.2.1.toNat = keySizeBits row.1 ∧ row.2.2.2.1.toNat = widthBits row.2.1 := by
  decide

/-- The two handles in a row are those of the row's pair, by variant (R82). -/
theorem handleByte_of_mem_handleTable (v : Variant) :
    ∀ row ∈ handleTable, (handleByte ⟨row.1, row.2.1, v⟩).setWidth 32 =
      if v = .hardwareAccelerated then row.2.2.2.2.2 else row.2.2.2.2.1 := by
  cases v
  case reference => decide
  case hardwareAccelerated => decide

/-- Settles O15: the selector finds the row's pair with the variant the dispatch table holds for it. -/
theorem selectAnswersTheHandleOfTheTable : Obligations.SelectAnswersTheHandleOfTheTable := by
  intro s row hrow
  obtain ⟨hk, hw⟩ := bits_of_mem_handleTable row hrow
  have hsel : select s.HWREG row.2.2.1.toNat row.2.2.2.1.toNat
      = some ⟨row.1, row.2.1, dispatchRow s.HWREG row.1 row.2.1⟩ := select_eq_some.2 ⟨hk, hw, rfl⟩
  rw [exec_select, execSelect_of_select_eq_some hsel, handleByte_of_mem_handleTable _ row hrow]

/-! ### The unsupported pairs -/

/-- The selector fails exactly where the key size or the width is not one of R174's. -/
theorem select_eq_none_iff_unsupported {t : DispatchTable} {kb wb : Nat} :
    select t kb wb = none ↔ (kb ≠ 128 ∧ kb ≠ 192 ∧ kb ≠ 256) ∨ (wb ≠ 128 ∧ wb ≠ 8 ∧ wb ≠ 1) := by
  simp only [select_eq_none, keySizeOfBits_eq_none, widthOfBits_eq_none, not_or, ne_eq]

/-- Settles O16: the selector fails on an unsupported pair, and on a supported one it has a handle. -/
theorem selectRefusesExactlyTheUnsupportedPairs : Obligations.SelectRefusesExactlyTheUnsupportedPairs := by
  refine ⟨fun s ksb fw hun => ?_, fun s ksb fw hk hw => ?_⟩
  · exact execSelect_of_select_eq_none (select_eq_none_iff_unsupported.2 hun)
  · cases hsel : select s.HWREG ksb.toNat fw.toNat with
    | none =>
      have hun := select_eq_none_iff_unsupported.1 hsel
      omega
    | some h => exact ⟨handleByte h, execSelect_of_select_eq_some hsel⟩

end Sys2Proof.Machine
end

section
/-! PROOFS. The statements about `INIT`: the context a successful one begins (R189 to R191), the error a failing one
reports (R187, R194), and that nothing from before a successful one can be observed (R199). -/

namespace Sys2Proof.Machine

/-! ### `CTL` as a number -/

/-- The number of `CTL` is the sum of its fields' codes, each at its place (R26). -/
theorem toNat_ctlWord (c : Ctl) :
    (ctlWord c).toNat =
      (lifecycleCode c.LS).toNat + 4 * (directionCode c.DIR).toNat + 8 * (widthCode c.WC).toNat
        + 32 * (keySizeCode c.KC).toNat + 128 * (variantCode c.VAR).toNat + 256 * c.CUR.toNat := by
  obtain ⟨ls, dir, wc, kc, var, cur⟩ := ctlWord_fields c
  rw [← ls, ← dir, ← wc, ← kc, ← var, ← cur]
  simp only [BitVec.extractLsb'_toNat, Nat.shiftRight_eq_div_pow]
  have hlt : (ctlWord c).toNat < 2 ^ 11 := (ctlWord c).isLt
  omega

/-! ### What `INIT` answers, test by test (R187) -/

section
variable (dir : Direction) {fw : BitVec 8} {ksref : KsRef} {iv : List Byte} {s : State}

/-- Test (1): the slot records no supported key size. -/
theorem execInit_of_keySizeOfBits_eq_none (hk : keySizeOfBits (keySlot s.KS ksref).ksb = none) :
    execInit dir fw ksref iv s = .next (s.answered 0x21000000#32 []) := by
  rw [execInit, hk, ← responseWord_init_invalidKeySize]
  rfl

/-- Test (2): the key size is supported and the width is not. -/
theorem execInit_of_widthOfBits_eq_none (hk : keySizeOfBits (keySlot s.KS ksref).ksb ≠ none)
    (hw : widthOfBits fw.toNat = none) :
    execInit dir fw ksref iv s = .next (s.answered 0x23000000#32 []) := by
  obtain ⟨k, hk⟩ := Option.ne_none_iff_exists'.1 hk
  rw [execInit, hk, select_eq_none.2 (.inr hw), ← responseWord_init_unsupported]
  rfl

/-- Test (3): the pair is supported and the IV is not a block. -/
theorem execInit_of_length_ne (hk : keySizeOfBits (keySlot s.KS ksref).ksb ≠ none)
    (hw : widthOfBits fw.toNat ≠ none) (hl : iv.length ≠ 16) :
    execInit dir fw ksref iv s = .next (s.answered 0x22000000#32 []) := by
  obtain ⟨k, hk⟩ := Option.ne_none_iff_exists'.1 hk
  obtain ⟨w, hw⟩ := Option.ne_none_iff_exists'.1 hw
  have hsel : select s.HWREG (keySlot s.KS ksref).ksb fw.toNat = some ⟨k, w, dispatchRow s.HWREG k w⟩ :=
    select_eq_some.2 ⟨keySizeOfBits_eq_some.1 hk, widthOfBits_eq_some.1 hw, rfl⟩
  simp only [execInit, hk, hsel, if_neg hl, ← responseWord_init_invalidIvLength]
  rfl

/-- No test fails: the context of the selector's handle begins (R188 to R191), answered with status 0. -/
theorem execInit_of_select_eq_some {h : Handle}
    (hsel : select s.HWREG (keySlot s.KS ksref).ksb fw.toNat = some h) (hl : iv.length = 16) :
    execInit dir fw ksref iv s = .next ((beginContext h dir ksref iv s).answered 0x20000000#32 []) := by
  obtain ⟨h', hsel', _, e⟩ := execInit_succeeds dir (initSucceeds_of_select hsel hl)
  obtain rfl := Option.some.inj (hsel.symm.trans hsel')
  rw [e, respond_eq_answered, responseWord_init_ok]

end

/-- Settles O17: the selector's handle is the pair with the variant of its row, and the register's bytes are the IV. -/
theorem initBeginsTheContext : Obligations.InitBeginsTheContext := by
  intro s dir fw ksref iv k w hk hw hl
  have hsel : select s.HWREG (keySlot s.KS ksref).ksb fw.toNat = some ⟨k, w, dispatchRow s.HWREG k w⟩ :=
    select_eq_some.2 ⟨hk, hw, rfl⟩
  refine ⟨blockOfBytes iv, dispatchRow s.HWREG k w, fun i hi => byteAt_blockOfBytes hl hi, Iff.rfl, ?_,
    execInit_of_select_eq_some dir hsel hl⟩
  -- The sum field by field; the cursor's summand is 0.
  refine (toNat_ctlWord _).trans ((Nat.add_zero _).trans
    (congrArg₂ (· + ·) (congrArg₂ (· + ·) (congrArg₂ (· + ·) (congrArg (1 + ·) ?_) ?_) ?_) ?_))
  · cases dir <;> rfl
  · cases w <;> rfl
  · cases k <;> rfl
  · cases dispatchRow s.HWREG k w <;> rfl

/-- Settles O18: one test of R187 after the other, each reached only when those before it passed. -/
theorem initReportsTheFirstErrorAndChangesNothing : Obligations.InitReportsTheFirstErrorAndChangesNothing := by
  intro s dir fw ksref iv ksb badKey badWidth
  have hkey : keySizeOfBits ksb = none ↔ badKey := by
    simp only [keySizeOfBits_eq_none, not_or, badKey, ne_eq]
  have hwidth : widthOfBits fw.toNat = none ↔ badWidth := by
    simp only [widthOfBits_eq_none, not_or, badWidth, ne_eq]
  refine ⟨fun hk => ?_, fun hk hw => ?_, fun hk hw hl => ?_⟩
  · exact execInit_of_keySizeOfBits_eq_none dir (hkey.2 hk)
  · exact execInit_of_widthOfBits_eq_none dir (mt hkey.1 hk) (hwidth.2 hw)
  · exact execInit_of_length_ne dir (mt hkey.1 hk) (mt hwidth.1 hw) hl

/-- Settles O19: both engines begin the context of one handle, and equal engines behave equally. -/
theorem initLeavesNothingOfTheOldContext : Obligations.InitLeavesNothingOfTheOldContext := by
  intro s s' dir fw ksref iv hKS hT hok
  obtain ⟨h, hsel, hl, _⟩ := execInit_succeeds dir hok
  have hsel' : select s'.HWREG (keySlot s'.KS ksref).ksb fw.toNat = some h := by rwa [← hKS, ← hT]
  have heq : ((beginContext h dir ksref iv s).answered 0x20000000#32 []).sameEngine
      ((beginContext h dir ksref iv s').answered 0x20000000#32 []) := ⟨rfl, rfl, rfl, hKS, hT⟩
  refine ⟨_, _, execInit_of_select_eq_some dir hsel hl, execInit_of_select_eq_some dir hsel' hl, heq, fun later => ?_⟩
  obtain ⟨u, u', rs, e, e', _, hrs, hrs'⟩ := equalEnginesBehaveEqually _ _ later heq
  exact ⟨u, u', rs, e, e', hrs, hrs'⟩

end Sys2Proof.Machine
end

section
/-! PROOFS. The statement about the answer to a command: one response for each, and precise errors (R80, R217). -/

namespace Sys2Proof.Machine

/-! ### Fields of a response word -/

/-- The status field is 0 for success and for nothing else (R81). -/
theorem responseWord_status_eq_zero_iff (opc : BitVec 4) (st : Status) (info : BitVec 24) :
    responseWord opc st info &&& 0x0F000000#32 = 0#32 ↔ st = .ok := by
  rw [responseWord_status]
  cases st <;> decide

/-- An `INFO` of 8 bits leaves bits 23:8 clear (R80, R82). -/
theorem responseWord_info_of_byte (opc : BitVec 4) (st : Status) (b : BitVec 8) :
    responseWord opc st (b.setWidth 24) &&& 0x00FFFF00#32 = 0#32 := by
  have hmask : 0x00FFFF00#32 = 0x00FFFFFF#32 &&& 0x00FFFF00#32 := by decide
  rw [hmask, ← BitVec.and_assoc, responseWord_info]
  revert b
  decide +kernel

/-! ### Precise answers -/

/-- `t` is `s` after the answer to a command with header `h`, of status `st`, `INFO` `info` and output `payload`: one
response that echoes the opcode, with the fields R80 gives it, and nothing else on an error (R217). -/
structure PreciseAnswer (h : Word) (s t : State) (st : Status) (info : BitVec 24) (payload : List Byte) : Prop where
  events : t.events = s.events
  responses : t.responses = s.responses ++ [⟨responseWord (opcodeOf h) st info, payload⟩]
  error : st ≠ .ok → info = 0#24 ∧ payload = [] ∧ t = raise (opcodeOf h) st s
  process : st = .ok → opcodeOf h = 3#4 → payload.length = plen h ∧ info.toNat = plen h
  noPayload : opcodeOf h ≠ 3#4 → payload = []
  init : st = .ok → opcodeOf h = 2#4 → info = 0#24
  select : st = .ok → opcodeOf h = 1#4 → ∃ b : BitVec 8, info = b.setWidth 24

/-- Raising an error is a precise answer to any command (R217, R218). -/
theorem raise_preciseAnswer {h : Word} {opc : BitVec 4} (ho : opcodeOf h = opc) (s : State) {error : Status}
    (hne : error ≠ .ok) : PreciseAnswer h s (raise opc error s) error 0#24 [] := by
  subst ho
  exact {
    events := rfl
    responses := rfl
    error := fun _ => ⟨rfl, rfl, rfl⟩
    process := fun hok => absurd hok hne
    noPayload := fun _ => rfl
    init := fun hok => absurd hok hne
    select := fun hok => absurd hok hne }

/-- `SELECT` raises its error or answers a handle (R173, R174). -/
theorem execSelect_preciseAnswer {h : Word} (ho : opcodeOf h = 1#4) (ksb : BitVec 12) (fw : BitVec 8) (s : State) :
    ∃ t st info payload, execSelect ksb fw s = .next t ∧ PreciseAnswer h s t st info payload := by
  rcases execSelect_cases ksb fw s with ⟨_, e⟩ | ⟨hd, _, e⟩
  · exact ⟨_, _, _, _, e, raise_preciseAnswer ho s (by decide)⟩
  · exact ⟨_, _, _, _, e, {
      events := rfl
      responses := by rw [ho, respond_responses]
      error := fun hne => absurd rfl hne
      process := fun _ h3 => absurd (ho.symm.trans h3) (by decide)
      noPayload := fun _ => rfl
      init := fun _ h2 => absurd (ho.symm.trans h2) (by decide)
      select := fun _ _ => ⟨handleByte hd, rfl⟩ }⟩

/-- `INIT` raises one of its errors or begins a context, with `INFO` 0 (R187, R192). -/
theorem execInit_preciseAnswer {h : Word} (ho : opcodeOf h = 2#4) (dir : Direction) (fw : BitVec 8) (ksref : KsRef)
    (iv : List Byte) (s : State) :
    ∃ t st info payload, execInit dir fw ksref iv s = .next t ∧ PreciseAnswer h s t st info payload := by
  rcases execInit_cases dir fw ksref iv s with ⟨_, e⟩ | ⟨_, _, e⟩ | ⟨_, _, _, e⟩ | ⟨_, _, _, e⟩
  · exact ⟨_, _, _, _, e, raise_preciseAnswer ho s (by decide)⟩
  · exact ⟨_, _, _, _, e, raise_preciseAnswer ho s (by decide)⟩
  · exact ⟨_, _, _, _, e, raise_preciseAnswer ho s (by decide)⟩
  · exact ⟨_, _, _, _, e, {
      events := rfl
      responses := by rw [ho, respond_responses, beginContext_responses]
      error := fun hne => absurd rfl hne
      process := fun _ h3 => absurd (ho.symm.trans h3) (by decide)
      noPayload := fun _ => rfl
      init := fun _ _ => rfl
      select := fun _ h1 => absurd (ho.symm.trans h1) (by decide) }⟩

/-- `PROCESS` raises one of its errors or answers as many bytes as it takes (R51, R101, R102). -/
theorem execProcess_preciseAnswer {h : Word} (ho : opcodeOf h = 3#4) {input : List Byte} (hl : input.length = plen h)
    (s : State) :
    ∃ t st info payload, execProcess input s = .next t ∧ PreciseAnswer h s t st info payload := by
  by_cases ha : s.accepting
  · obtain ⟨t, e, _, _, _, _, _, hev, _, hr⟩ := execProcess_accepting input ha
    have hinfo : (BitVec.ofNat 24 input.length).toNat = plen h := by
      rw [plen_of_opcode_process ho] at hl ⊢
      rw [ofNat_length_of_eq_toNat hl]
    exact ⟨t, .ok, _, (contextPass Config.E input s).out, e, {
      events := hev
      responses := by rw [ho, hr]
      error := fun hne => absurd rfl hne
      process := fun _ _ => ⟨(length_cfb_out ..).trans hl, hinfo⟩
      noPayload := fun h3 => absurd ho h3
      init := fun _ h2 => absurd (ho.symm.trans h2) (by decide)
      select := fun _ h1 => absurd (ho.symm.trans h1) (by decide) }⟩
  · rcases not_accepting_iff.1 ha with hls | hls
    · exact ⟨_, _, _, _, execProcess_uninit input hls, raise_preciseAnswer ho s (by decide)⟩
    · exact ⟨_, _, _, _, execProcess_exhausted input hls, raise_preciseAnswer ho s (by decide)⟩

/-- A step on a framed command answers it precisely: an illegal header by an error (R77), a legal one by its command. -/
theorem step_preciseAnswer {s : State} {c : Command} {rest : List Event} (he : s.events = .command c :: rest)
    (hf : framed c = true) :
    ∃ t st info payload, step s = .next t ∧ PreciseAnswer c.header { s with events := rest } t st info payload := by
  cases hd : decode c with
  | error why => exact ⟨_, _, _, _, step_of_decode_error he hf hd, raise_preciseAnswer rfl _ (by decide)⟩
  | ok i =>
    rw [step_of_decode he hf hd]
    cases i with
    | select ksb fw => exact execSelect_preciseAnswer (decode_eq_select.1 hd).1 ksb fw _
    | init dir fw ksref iv => exact execInit_preciseAnswer (decode_eq_init.1 hd).1 dir fw ksref iv _
    | process input =>
      obtain ⟨ho, _, rfl⟩ := decode_eq_process.1 hd
      exact execProcess_preciseAnswer ho (of_decide_eq_true hf) _

/-- Settles O8: the fields of the precise answer, read from the response word by the masks of R80. -/
theorem everyCommandIsAnsweredOnceAndErrorsArePrecise :
    Obligations.EveryCommandIsAnsweredOnceAndErrorsArePrecise := by
  intro s c rest he hf
  obtain ⟨t, st, info, payload, e, answer⟩ := step_preciseAnswer he hf
  have hok := responseWord_status_eq_zero_iff (opcodeOf c.header) st info
  have hinfo := responseWord_info (opcodeOf c.header) st info
  refine ⟨t, _, e, answer.events, answer.responses, ?_, fun hst => ?_, fun hst ho => ?_, fun ho => ?_, fun hst ho => ?_,
    fun hst ho => ?_⟩
  · rw [responseWord_opcode, and_opcode]
  · obtain ⟨rfl, rfl, ht⟩ := answer.error (mt hok.2 hst)
    exact ⟨hinfo, rfl, ht⟩
  · obtain ⟨hlen, hlen'⟩ := answer.process (hok.1 hst) ((ushiftRight_eq_iff _ 3#4).1 ho)
    exact ⟨hlen, by rw [hinfo, BitVec.toNat_setWidth_of_le (by decide), hlen']⟩
  · exact answer.noPayload (mt (ushiftRight_eq_iff _ 3#4).2 ho)
  · rw [hinfo, answer.init (hok.1 hst) ((ushiftRight_eq_iff _ 2#4).1 ho)]
    rfl
  · obtain ⟨b, rfl⟩ := answer.select (hok.1 hst) ((ushiftRight_eq_iff _ 1#4).1 ho)
    exact responseWord_info_of_byte ..

end Sys2Proof.Machine
end

section
/-! PROOFS. The statements about the port: waiting and reset (R240, R241, R243), and framed pairs never stop (R251). -/

namespace Sys2Proof.Machine

/-! ### A step by what is presented -/

/-- A step with nothing presented (R241). -/
theorem step_of_no_event {s : State} (he : s.events = []) : step s = .next s := by
  simp only [step, he, waitForEvent]

/-- A step on a reset, whatever command is in progress (R243). -/
theorem step_of_reset {s : State} {inProgress : Option Command} {rest : List Event}
    (he : s.events = .reset inProgress :: rest) : step s = .next (resetRegisters { s with events := rest }) := by
  simp only [step, he, takeReset]

/-- Settles O3: the step with nothing presented. -/
theorem idleEngineWaits : Obligations.IdleEngineWaits := fun _ => step_of_no_event

/-- Settles O1: a reset writes the registers and nothing of the host's; a framed command is answered precisely, so
exactly once. -/
theorem resetAbandonsTheCommandWithoutResponse : Obligations.ResetAbandonsTheCommandWithoutResponse := by
  refine ⟨rfl, fun s inProgress rest he => ?_, fun s c rest he hf => ?_⟩
  · exact ⟨_, step_of_reset he, rfl, rfl, rfl, rfl, rfl⟩
  · obtain ⟨t, _, _, _, e, answer⟩ := step_preciseAnswer he hf
    exact ⟨t, _, e, answer.responses⟩

/-! ### Framed ports -/

/-- Taking the next event leaves a framed port framed. -/
theorem portFramed_of_events_eq_tail {s t : State} {ev : Event} {rest : List Event} (h : s.portFramed)
    (he : s.events = ev :: rest) (ht : t.events = rest) : t.portFramed := by
  intro c hc
  apply h
  rw [he, ← ht]
  exact List.mem_cons_of_mem ev hc

/-- Settles O7: by the next event. Waiting keeps the list; a reset and a framed command are taken off it. -/
theorem framedPortNeverStops : Obligations.FramedPortNeverStops := by
  intro s h
  cases he : s.events with
  | nil => exact ⟨s, step_of_no_event he, h⟩
  | cons ev rest =>
    cases ev with
    | reset inProgress => exact ⟨_, step_of_reset he, portFramed_of_events_eq_tail h he rfl⟩
    | command c =>
      have hf : framed c = true := h c (he ▸ List.mem_cons_self)
      obtain ⟨t, _, _, _, e, answer⟩ := step_preciseAnswer he hf
      exact ⟨t, e, portFramed_of_events_eq_tail h he answer.events⟩

end Sys2Proof.Machine
end
